-- ==== Sys2Proof/Word.lean ====
section
/-!
DEFINITION. The words, octets and bit strings of the binary_converter CORE block (00_scope.md rules R16, R17;
20_memory.md rules R34, R35; 30_encoding.md rule R61).
-/

namespace Sys2Proof

/-- One octet of an operand (20_memory.md rule R35). -/
abbrev Byte := BitVec 8

/-- The 32-bit command word CMD (30_encoding.md rule R61); bits are numbered from 0 at the least significant end (R36). -/
abbrev CmdWord := BitVec 32

/-- An operand text: its octets in text order, `operand<0>` first (20_memory.md rule R35). -/
abbrev Text := List Byte

/-- A bit string: its digits in text order, position 0 the leftmost and most significant (00_scope.md rule R16). -/
abbrev BitString := List Bool

end Sys2Proof
end

