-- ==== Sys2Proof/Config.lean ====
section
/-!
DEFINITION. The constants fixed for an instance of the block (10_state.md rule R24): the IEEE-754 layouts of 00_scope.md
rule R14 and the two parameters of rule R15, which the spec leaves open and which therefore have no body here.
-/

namespace Sys2Proof.Config

/-- An IEEE-754 layout (C, M, Bias): exponent-field width, mantissa-field width, exponent bias (00_scope.md rule R14). -/
structure Layout where
  c : Nat
  m : Nat
  bias : Nat
deriving DecidableEq, Repr

/-- The layout of F32ENC and F32DEC (42_ieee754.md rule R160). -/
def f32 : Layout := { c := 8, m := 23, bias := 127 }

/-- The layout of F64ENC and F64DEC (42_ieee754.md rule R160). -/
def f64 : Layout := { c := 11, m := 52, bias := 1023 }

/-- The width N = 1 + C + M of a layout (00_scope.md rule R14). -/
def Layout.width (l : Layout) : Nat := 1 + l.c + l.m

/-- EMAX = 2^C - 1, the all-ones exponent field (42_ieee754.md rule R161). -/
def Layout.emax (l : Layout) : Nat := 2 ^ l.c - 1

/-- The largest number of digits of a bit string the block reads or writes (00_scope.md rule R11). -/
abbrev maxBits : Nat := 64

/-- How far OPERAND_CAPACITY exceeds its least value 70. Left open by the spec: no body, so nothing can be proved of
its value (00_scope.md rule R15, decision D4, assumption log 2). -/
opaque spareCapacity : Nat

/-- OPERAND_CAPACITY, the largest operand length in octets the request port accepts: "a natural number at least 70"
(00_scope.md rule R15, assumption log 2). One constant for every State: instances side by side have the same value
(DESIGN CHOICE, assumption log 8). -/
def operandCapacity : Nat := spareCapacity + 70

/-- NEG_ZERO_SIGN: whether the IEEE-754 encoders keep the sign of a negative zero. Left open by the spec: no body
(00_scope.md rule R15, 42_ieee754.md rule R166, decision D5, assumption log 3). One constant for every State: instances side
by side have the same value (DESIGN CHOICE, assumption log 8). -/
opaque negZeroSign : Bool

end Sys2Proof.Config
end

