-- ==== Sys2Proof/Syntax.lean ====
section
/-!
DEFINITION. The instructions: one constructor per row of spec/opcode_table.json, in the table's order (30_encoding.md
rule R70), each with all three command fields W, K, J of the format CMD32 (rule R61), read as plain unsigned numbers
(rule R65). Fields an operation ignores (rule R64) are kept, so that decoding drops no bit; Dispatch does not pass them on.
-/

namespace Sys2Proof

/-- The fourteen operations (00_scope.md rule R2). `w`, `k`, `j` are the fields W, K, J of the command word. -/
inductive Instr where
  /-- 0x0, unsigned_binary_encoder (40_integer_codecs.md rule R101) -/
  | uenc (w k j : Nat)
  /-- 0x1, unsigned_binary_decoder (rule R103) -/
  | udec (w k j : Nat)
  /-- 0x2, sign_magnitude_converter, encode (rule R105) -/
  | smenc (w k j : Nat)
  /-- 0x3, sign_magnitude_converter, decode (rule R107) -/
  | smdec (w k j : Nat)
  /-- 0x4, ones_complement_converter, encode (rule R109) -/
  | ocenc (w k j : Nat)
  /-- 0x5, ones_complement_converter, decode (rule R111) -/
  | ocdec (w k j : Nat)
  /-- 0x6, twos_complement_converter, encode (rule R113) -/
  | tcenc (w k j : Nat)
  /-- 0x7, twos_complement_converter, decode (rule R115) -/
  | tcdec (w k j : Nat)
  /-- 0x8, fixed_point_encoder (41_fixed_point.md rule R142) -/
  | fxenc (w k j : Nat)
  /-- 0x9, fixed_point_decoder (rule R144) -/
  | fxdec (w k j : Nat)
  /-- 0xA, ieee754_32_encoder (42_ieee754.md rule R163) -/
  | f32enc (w k j : Nat)
  /-- 0xB, ieee754_32_decoder (rule R169) -/
  | f32dec (w k j : Nat)
  /-- 0xC, ieee754_64_encoder (rule R163) -/
  | f64enc (w k j : Nat)
  /-- 0xD, ieee754_64_decoder (rule R169) -/
  | f64dec (w k j : Nat)
deriving DecidableEq, Repr

/-- The field W of an instruction. -/
def Instr.w : Instr → Nat
  | .uenc w _ _ | .udec w _ _ | .smenc w _ _ | .smdec w _ _ | .ocenc w _ _ | .ocdec w _ _ | .tcenc w _ _
  | .tcdec w _ _ | .fxenc w _ _ | .fxdec w _ _ | .f32enc w _ _ | .f32dec w _ _ | .f64enc w _ _ | .f64dec w _ _ => w

/-- The field K of an instruction. -/
def Instr.k : Instr → Nat
  | .uenc _ k _ | .udec _ k _ | .smenc _ k _ | .smdec _ k _ | .ocenc _ k _ | .ocdec _ k _ | .tcenc _ k _
  | .tcdec _ k _ | .fxenc _ k _ | .fxdec _ k _ | .f32enc _ k _ | .f32dec _ k _ | .f64enc _ k _ | .f64dec _ k _ => k

/-- The field J of an instruction. -/
def Instr.j : Instr → Nat
  | .uenc _ _ j | .udec _ _ j | .smenc _ _ j | .smdec _ _ j | .ocenc _ _ j | .ocdec _ _ j | .tcenc _ _ j
  | .tcdec _ _ j | .fxenc _ _ j | .fxdec _ _ j | .f32enc _ _ j | .f32dec _ _ j | .f64enc _ _ j | .f64dec _ _ j => j

end Sys2Proof
end

