-- ==== Sys2Proof/WellFormed.lean ====
section
/-!
DEFINITION. Which terms of Instr are instructions of the command set: those whose fields fit the 7-bit fields W, K, J of
the command word (30_encoding.md rule R61). Whether a width is legal for its operation is no matter of well-formedness: a
value outside the operation's range "is rejected by the operation's own rule, not by the decoder" (rule R65).
-/

namespace Sys2Proof

/-- A number fits a 7-bit field of the command word, "unsigned 0 to 127" (30_encoding.md rule R61). -/
def fitsField (n : Nat) : Bool := n < 2 ^ 7

/-- Every field of the instruction fits its place in the command word (30_encoding.md rule R61). -/
def Instr.wellFormed (i : Instr) : Bool := fitsField i.w && fitsField i.k && fitsField i.j

/-- `Instr.wellFormed` as a proposition. -/
abbrev Instr.WellFormed (i : Instr) : Prop := i.wellFormed = true

end Sys2Proof
end

