-- ==== Sys2Proof/Decode.lean ====
section
/-!
DEFINITION. The decoder and the encoder of the command word (30_encoding.md rules R61 to R70): total on every 32-bit
word, rejecting by name the words that rule R68 calls illegal.
-/

namespace Sys2Proof

/-- Why a command word is illegal (30_encoding.md rule R68). -/
inductive DecodeError where
  /-- RSV = CMD[31:25] is not 0. -/
  | reservedBitsSet
  /-- OPC is 0xE or 0xF. -/
  | reservedOpcode
deriving DecidableEq, Repr

/-! ### The fields of CMD (rule R61) -/

/-- OPC = CMD[3:0]. -/
def opcField (cmd : CmdWord) : BitVec 4 := cmd.extractLsb' 0 4

/-- W = CMD[10:4]. -/
def wField (cmd : CmdWord) : BitVec 7 := cmd.extractLsb' 4 7

/-- K = CMD[17:11]. -/
def kField (cmd : CmdWord) : BitVec 7 := cmd.extractLsb' 11 7

/-- J = CMD[24:18]. -/
def jField (cmd : CmdWord) : BitVec 7 := cmd.extractLsb' 18 7

/-- RSV = CMD[31:25]. -/
def rsvField (cmd : CmdWord) : BitVec 7 := cmd.extractLsb' 25 7

/-- The operation of an operation code, by the case list of rule R62; none for the reserved codes 0xE and 0xF. -/
def instrOfOpcode (opc w k j : Nat) : Option Instr :=
  match opc with
  | 0 => some (.uenc w k j)
  | 1 => some (.udec w k j)
  | 2 => some (.smenc w k j)
  | 3 => some (.smdec w k j)
  | 4 => some (.ocenc w k j)
  | 5 => some (.ocdec w k j)
  | 6 => some (.tcenc w k j)
  | 7 => some (.tcdec w k j)
  | 8 => some (.fxenc w k j)
  | 9 => some (.fxdec w k j)
  | 10 => some (.f32enc w k j)
  | 11 => some (.f32dec w k j)
  | 12 => some (.f64enc w k j)
  | 13 => some (.f64dec w k j)
  | _ => none

/-- The decoder: the reserved space first, then the operation OPC selects (30_encoding.md rules R62, R68). -/
def decode (cmd : CmdWord) : Except DecodeError Instr :=
  if rsvField cmd ≠ 0 then .error .reservedBitsSet
  else
    match instrOfOpcode (opcField cmd).toNat (wField cmd).toNat (kField cmd).toNat (jField cmd).toNat with
    | some i => .ok i
    | none => .error .reservedOpcode

/-! ### The encoder (rules R61, R70) -/

/-- The operation code of an instruction, the OPC column of rule R70. -/
def Instr.opc : Instr → Nat
  | .uenc _ _ _ => 0
  | .udec _ _ _ => 1
  | .smenc _ _ _ => 2
  | .smdec _ _ _ => 3
  | .ocenc _ _ _ => 4
  | .ocdec _ _ _ => 5
  | .tcenc _ _ _ => 6
  | .tcdec _ _ _ => 7
  | .fxenc _ _ _ => 8
  | .fxdec _ _ _ => 9
  | .f32enc _ _ _ => 10
  | .f32dec _ _ _ => 11
  | .f64enc _ _ _ => 12
  | .f64dec _ _ _ => 13

/-- The command word of an instruction, field beside field as rule R61 lays them out: RSV = 0, J, K, W, OPC from the
most significant end. -/
def encode (i : Instr) : CmdWord :=
  0#7 ++ BitVec.ofNat 7 i.j ++ BitVec.ofNat 7 i.k ++ BitVec.ofNat 7 i.w ++ BitVec.ofNat 4 i.opc

/-! ### The opcode table and the structure of OPC (rules R63, R70) -/

/-- A row of rule R70: the mnemonic and the value `match` of CMD under the mask. -/
structure OpcodeRow where
  mnemonic : String
  matchWord : CmdWord
deriving DecidableEq, Repr

/-- The mask of rule R70. -/
def opcodeMask : CmdWord := 0xFE00000F#32

/-- The table of rule R70, in its order. -/
def opcodeTable : List OpcodeRow :=
  [ ⟨"UENC", 0x00000000#32⟩, ⟨"UDEC", 0x00000001#32⟩, ⟨"SMENC", 0x00000002#32⟩, ⟨"SMDEC", 0x00000003#32⟩,
    ⟨"OCENC", 0x00000004#32⟩, ⟨"OCDEC", 0x00000005#32⟩, ⟨"TCENC", 0x00000006#32⟩, ⟨"TCDEC", 0x00000007#32⟩,
    ⟨"FXENC", 0x00000008#32⟩, ⟨"FXDEC", 0x00000009#32⟩, ⟨"F32ENC", 0x0000000A#32⟩, ⟨"F32DEC", 0x0000000B#32⟩,
    ⟨"F64ENC", 0x0000000C#32⟩, ⟨"F64DEC", 0x0000000D#32⟩ ]

/-- Whether a command word selects a row: `(CMD & 0xFE00000F) == match` (rule R70). -/
def OpcodeRow.selects (row : OpcodeRow) (cmd : CmdWord) : Bool := cmd &&& opcodeMask == row.matchWord

/-- The mnemonic of an instruction (rule R70). -/
def Instr.mnemonic : Instr → String
  | .uenc _ _ _ => "UENC"
  | .udec _ _ _ => "UDEC"
  | .smenc _ _ _ => "SMENC"
  | .smdec _ _ _ => "SMDEC"
  | .ocenc _ _ _ => "OCENC"
  | .ocdec _ _ _ => "OCDEC"
  | .tcenc _ _ _ => "TCENC"
  | .tcdec _ _ _ => "TCDEC"
  | .fxenc _ _ _ => "FXENC"
  | .fxdec _ _ _ => "FXDEC"
  | .f32enc _ _ _ => "F32ENC"
  | .f32dec _ _ _ => "F32DEC"
  | .f64enc _ _ _ => "F64ENC"
  | .f64dec _ _ _ => "F64DEC"

/-- The representation that OPC[3:1] selects (rule R63); 7 is reserved. -/
inductive Representation where
  | unsignedBinary | signMagnitude | onesComplement | twosComplement | fixedPoint | ieee32 | ieee64
deriving DecidableEq, Repr

/-- The direction that OPC[0] selects (rule R63). -/
inductive Direction where
  | encode | decode
deriving DecidableEq, Repr

/-- OPC[3:1] as a representation (rule R63). -/
def representationOf (r : BitVec 3) : Option Representation :=
  match r.toNat with
  | 0 => some .unsignedBinary
  | 1 => some .signMagnitude
  | 2 => some .onesComplement
  | 3 => some .twosComplement
  | 4 => some .fixedPoint
  | 5 => some .ieee32
  | 6 => some .ieee64
  | _ => none

/-- OPC[0] as a direction: 0 encode, 1 decode (rule R63). -/
def directionOf (d : BitVec 1) : Direction := if d = 0 then .encode else .decode

/-- The operation of a representation in a direction (rules R2, R63). -/
def instrOfUnit (r : Representation) (d : Direction) (w k j : Nat) : Instr :=
  match r, d with
  | .unsignedBinary, .encode => .uenc w k j
  | .unsignedBinary, .decode => .udec w k j
  | .signMagnitude, .encode => .smenc w k j
  | .signMagnitude, .decode => .smdec w k j
  | .onesComplement, .encode => .ocenc w k j
  | .onesComplement, .decode => .ocdec w k j
  | .twosComplement, .encode => .tcenc w k j
  | .twosComplement, .decode => .tcdec w k j
  | .fixedPoint, .encode => .fxenc w k j
  | .fixedPoint, .decode => .fxdec w k j
  | .ieee32, .encode => .f32enc w k j
  | .ieee32, .decode => .f32dec w k j
  | .ieee64, .encode => .f64enc w k j
  | .ieee64, .decode => .f64dec w k j

/-- The decoder written from the structure of OPC (rule R63): the second spelling that "agrees" with the table's. -/
def decodeByStructure (cmd : CmdWord) : Except DecodeError Instr :=
  if cmd.extractLsb' 25 7 ≠ 0 then .error .reservedBitsSet
  else
    match representationOf (cmd.extractLsb' 1 3) with
    | some r => .ok (instrOfUnit r (directionOf (cmd.extractLsb' 0 1)) (wField cmd).toNat (kField cmd).toNat (jField cmd).toNat)
    | none => .error .reservedOpcode

/-! ### The host's view of the opcode table -/

/-- The command word whose low `nbits` bits are those of `w` and whose other bits are 0. Every instruction is one 32-bit
word (rule R67), so the numbering of spec/opcode_table.json is the numbering of CMD. -/
def tableWord (nbits w : Nat) : CmdWord := BitVec.ofNat 32 (w % 2 ^ nbits)

/-- The instruction the decoder reads from a table word; none where it refuses. -/
def decodeTableWord (nbits w : Nat) : Option Instr :=
  match decode (tableWord nbits w) with
  | .ok i => some i
  | .error _ => none

end Sys2Proof
end

