-- ==== Sys2Proof/Machine/State.lean ====
section
/-!
DEFINITION. The state of the machine as plain data: the response register set RSP (10_state.md rule R22), which is all the
state the spec gives the block, and beside it the host's actions that have not happened yet, which the spec passes to
the block as the argument of the host's issue step (rules R23, R27; assumption log 1).
-/

namespace Sys2Proof.Machine

/-- The response register set RSP, each field at the width of 10_state.md rule R22. -/
structure Rsp where
  /-- RSP_VALID: 1 once any operation has completed since reset -/
  rspValid : BitVec 1
  /-- RSP_STATUS: the status code of the last operation (30_encoding.md rule R74) -/
  rspStatus : BitVec 4
  /-- RES_TAG: the kind of result (30_encoding.md rule R75) -/
  resTag : BitVec 3
  /-- RES_NEG: the sign tag of a NUM or INF result -/
  resNeg : BitVec 1
  /-- RES_LEN: the length of a BITS result -/
  resLen : BitVec 7
  /-- RES_SIG: the bits of a BITS result, or the significand of a NUM result -/
  resSig : BitVec 64
  /-- RES_EXP: the power-of-two exponent of a NUM result, two's complement -/
  resExp : BitVec 16
deriving DecidableEq, Repr

/-- What the host can do to the block between two reads of RSP. -/
inductive HostAction where
  /-- Issue(cmd, operand), the block's one step (10_state.md rule R27). -/
  | issue (cmd : CmdWord) (operand : Text)
  /-- Reset, "between any two steps" (70_reset_and_hazards.md rule R240). -/
  | reset
  /-- The platform removes and restores the power (60_exceptions.md rule R217). -/
  | powerCycle
deriving DecidableEq, Repr

/-- The machine's state. `rsp` is the block's; `pending` is the host's, oldest action first: the serialised order of the
actions of every host that shares the instance (20_memory.md rules R43, R44), of which the block keeps no copy once an
action has happened (rule R23). -/
structure State where
  rsp : Rsp
  pending : List HostAction
deriving DecidableEq, Repr

/-- Reasons for the machine to stop with a fault: none. Nobody raises one: an error of the block is a status in RSP and the
machine goes on (60_exceptions.md rules R200, R207), so the type is empty. -/
inductive Fault where
deriving DecidableEq, Repr

/-- Reasons for a step not to happen. -/
inductive Refusal where
  /-- Raised by `exec` for an instruction that has no meaning yet. Safe. No arm of `exec` raises it. -/
  | notModelled (mnemonic : String)
  /-- Raised by `step` for a request whose operand has more than OPERAND_CAPACITY octets: "the issue step does not
  happen, RSP keeps its previous value, and no status is written" (60_exceptions.md rule R206). Safe. That no later action
  follows in the same run is the model's choice (assumption log 7). -/
  | operandTooLong
deriving DecidableEq, Repr

/-- RSP after reset: every field 0 (10_state.md rule R33). -/
def Rsp.reset : Rsp :=
  { rspValid := 0, rspStatus := 0, resTag := 0, resNeg := 0, resLen := 0, resSig := 0, resExp := 0 }

/-- The machine right after reset (10_state.md rule R33): RSP at its reset values, and no action of the host pending
(assumption log 1). -/
def State.reset : State := { rsp := Rsp.reset, pending := [] }

end Sys2Proof.Machine
end

