-- ==== Sys2Proof/Machine/Flags.lean ====
section
/-!
DEFINITION. Status and result: the block's only flags are RSP_VALID and RSP_STATUS (10_state.md rule R30). The outcomes of an
operation and their codes (30_encoding.md rules R71 to R75).
-/

namespace Sys2Proof.Machine

/-- The status of an operation: OK or one of seven errors (30_encoding.md rule R73). -/
inductive Status where
  | ok
  | invalidFormat
  | negativeValueError
  | widthMismatch
  | widthOverflow
  | invalidParameters
  | unsupportedWidth
  | illegalOperation
deriving DecidableEq, Repr

/-- The code written to RSP_STATUS (30_encoding.md rule R74). -/
def Status.code : Status → BitVec 4
  | .ok => 0
  | .invalidFormat => 1
  | .negativeValueError => 2
  | .widthMismatch => 3
  | .widthOverflow => 4
  | .invalidParameters => 5
  | .unsupportedWidth => 6
  | .illegalOperation => 7

/-- An exact non-negative dyadic rational `sig * 2^exp` (30_encoding.md rules R71, R72). -/
structure Mag where
  sig : Nat
  exp : Int
deriving DecidableEq, Repr

/-- The result of an operation (30_encoding.md rule R71). -/
inductive Result where
  /-- no result: every failed operation -/
  | none
  /-- a bit string: every successful encoder -/
  | bits (bs : BitString)
  /-- a decimal value with a sign tag; a negative zero is `num true` of magnitude 0 -/
  | num (neg : Bool) (q : Mag)
  /-- an infinity, from the IEEE-754 decoders only -/
  | inf (neg : Bool)
  /-- not-a-number, without a sign, from the IEEE-754 decoders only -/
  | nan
deriving DecidableEq, Repr

/-- RES_TAG of a result (30_encoding.md rule R75). -/
def Result.tag : Result → BitVec 3
  | .none => 0
  | .bits _ => 1
  | .num _ _ => 2
  | .inf _ => 3
  | .nan => 4

/-- What an operation answers: the pair (status, result) that `finish` writes (10_state.md rule R27). -/
structure Reply where
  status : Status
  result : Result
deriving DecidableEq, Repr

/-- The reply of an operation that succeeds: `finish(OK, result)` (00_scope.md rule R18). -/
def Reply.done (r : Result) : Reply := { status := .ok, result := r }

/-- The reply of an operation that fails: `raise <Error>` is `finish(<Error>, NONE)` (00_scope.md rule R18). -/
def Reply.raise (e : Status) : Reply := { status := e, result := .none }

end Sys2Proof.Machine
end

