-- ==== Sys2Proof/Machine/Operands.lean ====
section
/-!
DEFINITION. The operand grammars ParseBits, ParseInt, ParseDec and ParseFloat (30_encoding.md rules R80 to R85). Each is a
total function from the operand's octets; `none` is the failed parse that raises InvalidFormat.
-/

namespace Sys2Proof.Machine

/-! ### The octets of the grammars (rules R80 to R84, passage K1) -/

/-- space -/
def chSpace : Byte := 0x20#8
/-- `+` -/
def chPlus : Byte := 0x2B#8
/-- `-` -/
def chMinus : Byte := 0x2D#8
/-- `.` -/
def chPoint : Byte := 0x2E#8
/-- `0` -/
def chZero : Byte := 0x30#8
/-- `1` -/
def chOne : Byte := 0x31#8

/-- A separator of a binary operand: space, `.` or `-` (rule R81). -/
def isSeparator (c : Byte) : Bool := c == chSpace || c == chPoint || c == chMinus

/-- `0` or `1` (rule R81). -/
def isBit (c : Byte) : Bool := c == chZero || c == chOne

/-- A decimal digit, 0x30 to 0x39 (rule R82). -/
def isDigit (c : Byte) : Bool := 0x30 ≤ c.toNat && c.toNat ≤ 0x39

/-- The value of a decimal digit. -/
def digitValue (c : Byte) : Nat := c.toNat - 0x30

/-! ### ParseBits (rule R81) -/

/-- ParseBits: every separator removed, the rest a non-empty string of `0` and `1` (rule R81). -/
def parseBits (operand : Text) : Option BitString :=
  let t := operand.filter (fun c => !isSeparator c)
  if t.isEmpty || !t.all isBit then none else some (t.map (fun c => c == chOne))

/-! ### ParseInt (rule R82) -/

/-- The optional sign: whether a `-` stood there, and what follows the sign (rule R82). -/
def splitSign : Text → Bool × Text
  | [] => (false, [])
  | c :: t => if c = chMinus then (true, t) else if c = chPlus then (false, t) else (false, c :: t)

/-- The value of a digit string in base 10, most significant digit first. -/
def decimalValue (ds : Text) : Nat := ds.foldl (fun n c => 10 * n + digitValue c) 0

/-- `digit+` with its value in base 10 (rule R82). -/
def parseDigits (ds : Text) : Option Nat :=
  if ds.isEmpty || !ds.all isDigit then none else some (decimalValue ds)

/-- ParseInt: `sign? digit+`, giving (neg, n) (rule R82). -/
def parseInt (operand : Text) : Option (Bool × Nat) :=
  let (neg, ds) := splitSign operand
  match parseDigits ds with
  | some n => some (neg, n)
  | none => none

/-! ### ParseDec (rule R83) -/

/-- A decimal value (neg, a) with the exact magnitude a = num / 10^scale (rules R19, R83). -/
structure Decimal where
  neg : Bool
  num : Nat
  scale : Nat
deriving DecidableEq, Repr

/-- The octets before the first `sep`, and those after it if there is one. -/
def splitFirst (sep : Byte) : Text → Text × Option Text
  | [] => ([], none)
  | c :: t =>
    if c = sep then ([], some t)
    else
      let (before, after) := splitFirst sep t
      (c :: before, after)

/-- ParseDec: `sign? digit+ ( '.' digit+ )?`, giving (neg, I + F / 10^d) with d the number of digits after the point
(rule R83). I + F / 10^d is (I * 10^d + F) / 10^d. -/
def parseDec (operand : Text) : Option Decimal :=
  let (neg, body) := splitSign operand
  match splitFirst chPoint body with
  | (before, none) =>
    match parseDigits before with
    | some i => some { neg := neg, num := i, scale := 0 }
    | none => none
  | (before, some after) =>
    match parseDigits before, parseDigits after with
    | some i, some f => some { neg := neg, num := i * 10 ^ after.length + f, scale := after.length }
    | _, _ => none

/-! ### ParseFloat (rule R84) -/

/-- What ParseFloat gives (rule R84). -/
inductive FloatOperand where
  | infv (neg : Bool)
  | nanv (neg : Bool)
  | fin (d : Decimal)
deriving DecidableEq, Repr

/-- An ASCII letter in lower case; every other octet as it is (rule R84, "without regard to ASCII case"). -/
def lowerCase (c : Byte) : Byte := if 0x41 ≤ c.toNat ∧ c.toNat ≤ 0x5A then c + 0x20#8 else c

/-- `inf` -/
def wordInf : Text := [0x69#8, 0x6E#8, 0x66#8]
/-- `infinity` -/
def wordInfinity : Text := [0x69#8, 0x6E#8, 0x66#8, 0x69#8, 0x6E#8, 0x69#8, 0x74#8, 0x79#8]
/-- `nan` -/
def wordNan : Text := [0x6E#8, 0x61#8, 0x6E#8]

/-- ParseFloat: `sign? ( "inf" | "infinity" | "nan" )` in any ASCII case, otherwise ParseDec (rule R84). -/
def parseFloat (operand : Text) : Option FloatOperand :=
  let (neg, body) := splitSign operand
  let word := body.map lowerCase
  if word = wordInf ∨ word = wordInfinity then some (.infv neg)
  else if word = wordNan then some (.nanv neg)
  else
    match parseDec operand with
    | some d => some (.fin d)
    | none => none

end Sys2Proof.Machine
end

