-- ==== Sys2Proof/Machine/Ops.lean ====
section
/-!
DEFINITION. The shared operations: bit strings (00_scope.md rules R16, R17), the canonical pair of a NUM result and the RES_*
fields of a result (30_encoding.md rule R75), `finish` and `raise` (10_state.md rule R28), the request port and reset.

The block takes no exceptions: `raise` is the whole of its error handling, and it has no return (60_exceptions.md rules
R200, R207, R208).
-/

namespace Sys2Proof.Machine

/-! ### Bit strings -/

/-- A digit as a number. -/
def bitValue (b : Bool) : Nat := if b then 1 else 0

/-- `U(bs)`, the unsigned value: digit `bs<i>` of n counts `2^(n-1-i)`, the empty string 0 (00_scope.md rule R16). -/
def unsigned : BitString → Nat
  | [] => 0
  | b :: bs => bitValue b * 2 ^ bs.length + unsigned bs

/-- `bin_n(v)`, the n digits of v, most significant first; defined for 0 <= v < 2^n (00_scope.md rule R17). -/
def bin : Nat → Nat → BitString
  | 0, _ => []
  | n + 1, v => v.testBit n :: bin n v

/-- `not(bs)` inverts every digit (00_scope.md rule R17). -/
def invert (bs : BitString) : BitString := bs.map (fun b => !b)

/-- `bs<i>`; positions outside the string are never read. -/
def digit (bs : BitString) (i : Nat) : Bool := bs.getD i false

/-- `bs<a..b>`, positions a to b inclusive, empty when b < a (00_scope.md rule R16). -/
def slice (bs : BitString) (a b : Nat) : BitString := (bs.drop a).take (b + 1 - a)

/-! ### The canonical pair of a NUM result (rule R75) -/

/-- Halve an even significand and raise the exponent, at most `fuel` times. -/
def Mag.halve : Nat → Mag → Mag
  | 0, q => q
  | fuel + 1, q => if q.sig % 2 = 0 then Mag.halve fuel { sig := q.sig / 2, exp := q.exp + 1 } else q

/-- The canonical pair: sig = 0 and e = 0 for 0, otherwise sig odd (30_encoding.md rule R75). A number n > 0 can be halved
no more than log2 n times. -/
def Mag.canon (q : Mag) : Mag := if q.sig = 0 then { sig := 0, exp := 0 } else Mag.halve q.sig.log2 q

/-! ### Writing RSP -/

/-- A Boolean as a one-bit field. -/
def flagBit (b : Bool) : BitVec 1 := if b then 1 else 0

/-- RES_NEG of a result (30_encoding.md rule R75). -/
def Result.neg : Result → BitVec 1
  | .num neg _ => flagBit neg
  | .inf neg => flagBit neg
  | _ => 0

/-- RES_LEN of a result (30_encoding.md rule R75). -/
def Result.len : Result → BitVec 7
  | .bits bs => BitVec.ofNat 7 bs.length
  | _ => 0

/-- RES_SIG of a result (30_encoding.md rule R75; 20_memory.md rule R36). -/
def Result.sig : Result → BitVec 64
  | .bits bs => BitVec.ofNat 64 (unsigned bs)
  | .num _ q => BitVec.ofNat 64 q.canon.sig
  | _ => 0

/-- RES_EXP of a result, a 16-bit two's-complement number (30_encoding.md rule R75). -/
def Result.exp : Result → BitVec 16
  | .num _ q => BitVec.ofInt 16 q.canon.exp
  | _ => 0

/-- What `finish(status, result)` leaves in RSP (10_state.md rule R28). -/
def Rsp.ofReply (r : Reply) : Rsp :=
  { rspValid := 1
    rspStatus := r.status.code
    resTag := r.result.tag
    resNeg := r.result.neg
    resLen := r.result.len
    resSig := r.result.sig
    resExp := r.result.exp }

/-- `finish(status, result)`: writes RSP whole, in one update, and nothing else (10_state.md rules R27, R28). -/
def State.finish (s : State) (r : Reply) : State := { s with rsp := Rsp.ofReply r }

/-- `raise <Error>`: the error's code, no result (00_scope.md rule R18, 60_exceptions.md rule R200). -/
def State.raise (s : State) (e : Status) : State := s.finish (Reply.raise e)

/-! ### The request port and the host's actions -/

/-- The host's next action, if it has one. -/
def State.nextAction (s : State) : Option HostAction := s.pending.head?

/-- The octets on the operand port: the operand of the request under way (20_memory.md rule R35). Outside a request, where
no operation runs, the port is empty (assumption log 1). -/
def State.operand (s : State) : Text :=
  match s.pending with
  | .issue _ operand :: _ => operand
  | _ => []

/-- The request port admits an operand of at most OPERAND_CAPACITY octets (10_state.md rule R27, 60_exceptions.md rule R206). -/
def operandFits (operand : Text) : Bool := operand.length ≤ Config.operandCapacity

/-- The host's action under way has happened: the next one in the host's order follows (10_state.md rules R23, R26). -/
def State.advance (s : State) : State := { s with pending := s.pending.tail }

/-- Reset: every RSP field at its reset value, nothing else changed (70_reset_and_hazards.md rule R240). -/
def State.applyReset (s : State) : State := { s with rsp := Rsp.reset }

/-- Power removed and restored: RSP holds the reset values (60_exceptions.md rule R217). -/
def State.applyPowerCycle (s : State) : State := { s with rsp := Rsp.reset }

/-- The host's read of RSP: the whole record, no side effect (20_memory.md rules R37, R40, R43). -/
def State.readRsp (s : State) : Rsp := s.rsp

/-- The host puts a further action at the end of its list. -/
def State.present (s : State) (a : HostAction) : State := { s with pending := s.pending ++ [a] }

end Sys2Proof.Machine
end

