-- ==== Sys2Proof/Machine/FixedPoint.lean ====
section
/-!
DEFINITION. The fixed-point codecs (41_fixed_point.md): FXENC and FXDEC, and the source's repeated-doubling procedure, which
rule R143 says gives the same fraction digits.
-/

namespace Sys2Proof.Machine

/-- The parameters of a fixed-point layout are illegal: k < 1, j < 1 or k + j + 1 > 64 (rule R141). -/
def badFixedPoint (k j : Nat) : Bool := k < 1 || j < 1 || k + j + 1 > Config.maxBits

/-- FXENC (rule R142). The magnitude is a = num / 10^scale, so floor(a) = num / 10^scale and
floor((a - ip) * 2^j) = ((num mod 10^scale) * 2^j) / 10^scale, both divisions of natural numbers. -/
def fxenc (k j : Nat) (operand : Text) : Reply :=
  if badFixedPoint k j then .raise .invalidParameters
  else
    match parseDec operand with
    | none => .raise .invalidFormat
    | some a =>
      let s := decide (a.neg = true ∧ a.num > 0)
      let ip := a.num / 10 ^ a.scale
      if ip ≥ 2 ^ k then .raise .widthOverflow
      else
        let fb := (a.num % 10 ^ a.scale) * 2 ^ j / 10 ^ a.scale
        .done (.bits (s :: (bin k ip ++ bin j fb)))

/-- The value FXDEC reads from a string of the layout (k, j): `ip + fb / 2^j` as the dyadic (ip * 2^j + fb) * 2^-j
(rules R140, R144). -/
def fixedPointMag (k j : Nat) (bs : BitString) : Mag :=
  { sig := unsigned (slice bs 1 k) * 2 ^ j + unsigned (slice bs (k + 1) (k + j)), exp := -(j : Int) }

/-- FXDEC (rule R144). -/
def fxdec (k j : Nat) (operand : Text) : Reply :=
  if badFixedPoint k j then .raise .invalidParameters
  else
    match parseBits operand with
    | none => .raise .invalidFormat
    | some bs =>
      if bs.length ≠ k + j + 1 then .raise .widthMismatch
      else .done (.num (digit bs 0) (fixedPointMag k j bs))

/-- The source's repeated doubling of the fraction rem / den: each doubling moves the next binary digit into the integer
position; it stops when the remainder is exactly 0 or j digits are produced, and pads with zeros on the right
(rules R142, R143). -/
def repeatedDoubling (den : Nat) : Nat → Nat → BitString
  | 0, _ => []
  | j + 1, rem =>
    if rem = 0 then List.replicate (j + 1) false
    else decide (den ≤ 2 * rem) :: repeatedDoubling den j (2 * rem % den)

/-- Meaning of FXENC (rules R141, R142). -/
def execFxenc (k j : Nat) (s : State) : Host.Outcome State Fault Refusal := .next (s.finish (fxenc k j s.operand))

/-- Meaning of FXDEC (rules R141, R144). -/
def execFxdec (k j : Nat) (s : State) : Host.Outcome State Fault Refusal := .next (s.finish (fxdec k j s.operand))

end Sys2Proof.Machine
end

