-- ==== Sys2Proof/Machine/Ieee754.lean ====
section
/-!
DEFINITION. The IEEE-754 codecs (42_ieee754.md): FENC and FDEC over a layout, and the four operations they make. The block
truncates (rule R162) and reads an exponent field 0 with a non-zero mantissa as a normalized number (rule R171).
-/

namespace Sys2Proof.Machine

open Config (Layout)

/-! ### Encode -/

/-- The magnitude num / den is at least 2^e, in natural numbers. -/
def geTwoPow (num den : Nat) (e : Int) : Bool := den * 2 ^ e.toNat ≤ num * 2 ^ (-e).toNat

/-- The integer E with 2^E <= num / den < 2^(E+1), for num, den > 0 (rules R163, R164; 90_conflicts.md C4). The difference of
the two binary logarithms is E or E + 1. -/
def exponentOf (num den : Nat) : Int :=
  let e : Int := (num.log2 : Int) - (den.log2 : Int)
  if geTwoPow num den e then e else e - 1

/-- The mantissa field: floor((a / 2^E - 1) * 2^M) for a = num / den (rule R163), with numerator and denominator of a / 2^E
brought to natural numbers first. -/
def mantissaOf (m num den : Nat) (e : Int) : Nat :=
  let n := num * 2 ^ (-e).toNat
  let d := den * 2 ^ e.toNat
  (n - d) * 2 ^ m / d

/-- The magnitude num / den written in binary: its integer part (the single digit 0 below 1) followed by the first n digits of
its fraction (rule R164). -/
def binaryExpansion (num den n : Nat) : BitString :=
  bin ((num / den).log2 + 1) (num / den) ++ bin n (num % den * 2 ^ n / den)

/-- The source's `(integer part length - 1) - (index of first set bit)`, with the index counted from 0 at the leftmost digit
(rule R164, with the sign of 90_conflicts.md C4). -/
def windowExponent (num den n : Nat) : Int :=
  ((num / den).log2 : Int) - (binaryExpansion num den n).findIdx (fun b => b)

/-- The m digits after the first set bit (rule R164). -/
def windowMantissa (m num den n : Nat) : Nat :=
  let bs := binaryExpansion num den n
  let i := bs.findIdx (fun b => b)
  unsigned (slice bs (i + 1) (i + m))

/-- The pattern of an infinity (rules R163, R167). -/
def infPattern (l : Layout) (neg : Bool) : BitString := neg :: (bin l.c l.emax ++ bin l.m 0)

/-- The pattern of NaN, whatever sign was written (rules R163, R168). -/
def nanPattern (l : Layout) : BitString := false :: (bin l.c l.emax ++ bin l.m (2 ^ (l.m - 1)))

/-- The pattern of a zero: all zeros, but for the sign digit of a negative zero under NEG_ZERO_SIGN (rules R163, R166). -/
def zeroPattern (l : Layout) (negZeroSign neg : Bool) : BitString :=
  (negZeroSign && neg) :: bin (l.width - 1) 0

/-- FENC on a finite magnitude a > 0 (rules R163, R165). -/
def fencFinite (l : Layout) (neg : Bool) (num den : Nat) : Reply :=
  let e := exponentOf num den
  let eb := e + l.bias
  let mant := mantissaOf l.m num den e
  if eb ≥ l.emax ∨ eb < 0 ∨ (eb = 0 ∧ mant = 0) then .raise .widthOverflow
  else .done (.bits (neg :: (bin l.c eb.toNat ++ bin l.m mant)))

/-- FENC, with NEG_ZERO_SIGN as an argument (rule R163). -/
def fenc (l : Layout) (negZeroSign : Bool) (w : Nat) (operand : Text) : Reply :=
  if w ≠ l.width then .raise .unsupportedWidth
  else
    match parseFloat operand with
    | none => .raise .invalidFormat
    | some (.infv neg) => .done (.bits (infPattern l neg))
    | some (.nanv _) => .done (.bits (nanPattern l))
    | some (.fin a) =>
      if a.num = 0 then .done (.bits (zeroPattern l negZeroSign a.neg))
      else fencFinite l a.neg a.num (10 ^ a.scale)

/-! ### Decode -/

/-- The exponent field of a pattern (rule R160). -/
def exponentField (l : Layout) (bs : BitString) : Nat := unsigned (slice bs 1 l.c)

/-- The mantissa field of a pattern (rule R160). -/
def mantissaField (l : Layout) (bs : BitString) : Nat := unsigned (slice bs (l.c + 1) (l.c + l.m))

/-- The classification of a pattern, in the source's order (rules R169, R170). -/
def classify (l : Layout) (bs : BitString) : Result :=
  let s := digit bs 0
  let e := exponentField l bs
  let m := mantissaField l bs
  if e = l.emax ∧ m = 0 then .inf s
  else if e = l.emax then .nan
  else if e = 0 ∧ m = 0 then .num s { sig := 0, exp := 0 }
  else .num s { sig := 2 ^ l.m + m, exp := (e : Int) - l.bias - l.m }

/-- FDEC (rule R169). -/
def fdec (l : Layout) (operand : Text) : Reply :=
  match parseBits operand with
  | none => .raise .invalidFormat
  | some bs =>
    if bs.length ≠ l.width then .raise .widthMismatch
    else .done (classify l bs)

/-! ### The source's hand-off to the fixed-point decoder (rule R172) -/

/-- The string the source hands to the fixed-point decoder: the sign, |E| zeros when E < 0, the implicit 1, the mantissa
(rule R172). -/
def handOffString (l : Layout) (bs : BitString) (e : Int) : BitString :=
  digit bs 0 :: (List.replicate (-e).toNat false ++ true :: slice bs (l.c + 1) (l.c + l.m))

/-- The value of the hand-off for an unbiased exponent E: `k=1, j=len-2 when E<0`, `k=E+1, j=M-E when E>=0` (rule R172).
For E > M the source's j is negative and the hand-off has no meaning; the model never calls it. -/
def handOffMag (l : Layout) (bs : BitString) (e : Int) : Mag :=
  let t := handOffString l bs e
  if e < 0 then fixedPointMag 1 (t.length - 2) t else fixedPointMag (e.toNat + 1) (l.m - e.toNat) t

/-! ### The meanings -/

/-- Meaning of F32ENC (rule R163, layout F32). -/
def execF32enc (w : Nat) (s : State) : Host.Outcome State Fault Refusal :=
  .next (s.finish (fenc Config.f32 Config.negZeroSign w s.operand))

/-- Meaning of F32DEC (rule R169, layout F32). -/
def execF32dec (s : State) : Host.Outcome State Fault Refusal := .next (s.finish (fdec Config.f32 s.operand))

/-- Meaning of F64ENC (rule R163, layout F64). -/
def execF64enc (w : Nat) (s : State) : Host.Outcome State Fault Refusal :=
  .next (s.finish (fenc Config.f64 Config.negZeroSign w s.operand))

/-- Meaning of F64DEC (rule R169, layout F64). -/
def execF64dec (s : State) : Host.Outcome State Fault Refusal := .next (s.finish (fdec Config.f64 s.operand))

end Sys2Proof.Machine
end

