-- ==== Sys2Proof/Machine/Integer.lean ====
section
/-!
DEFINITION. The eight integer codecs (40_integer_codecs.md): each operation as a function from the fields and the operand it
reads to its reply, in the words of its rule, and its meaning, which finishes with that reply.
-/

namespace Sys2Proof.Machine

/-! ### Unsigned binary -/

/-- UENC (rule R101). -/
def uenc (w : Nat) (operand : Text) : Reply :=
  if w < 1 ∨ w > Config.maxBits then .raise .invalidParameters
  else
    match parseInt operand with
    | none => .raise .invalidFormat
    | some (neg, n) =>
      if neg = true ∧ n > 0 then .raise .negativeValueError
      else if n ≥ 2 ^ w then .raise .widthOverflow
      else .done (.bits (bin w n))

/-- The natural bit length of n: the smallest L with n < 2^L, 0 for 0 (rule R102). -/
def naturalBitLength (n : Nat) : Nat := if n = 0 then 0 else n.log2 + 1

/-- UDEC (rule R103). -/
def udec (operand : Text) : Reply :=
  match parseBits operand with
  | none => .raise .invalidFormat
  | some bs =>
    if bs.length > Config.maxBits then .raise .widthMismatch
    else .done (.num false { sig := unsigned bs, exp := 0 })

/-! ### Sign-magnitude -/

/-- SMENC (rule R105). -/
def smenc (w : Nat) (operand : Text) : Reply :=
  if w < 1 ∨ w > Config.maxBits then .raise .invalidParameters
  else
    match parseInt operand with
    | none => .raise .invalidFormat
    | some (neg, n) =>
      if n ≥ 2 ^ (w - 1) then .raise .widthOverflow
      else .done (.bits (decide (neg = true ∧ n > 0) :: bin (w - 1) n))

/-- SMDEC (rule R107). -/
def smdec (operand : Text) : Reply :=
  match parseBits operand with
  | none => .raise .invalidFormat
  | some bs =>
    if bs.length > Config.maxBits then .raise .widthMismatch
    else .done (.num (digit bs 0) { sig := unsigned (slice bs 1 (bs.length - 1)), exp := 0 })

/-! ### Ones'-complement -/

/-- OCENC (rule R109). -/
def ocenc (w : Nat) (operand : Text) : Reply :=
  if w < 1 ∨ w > Config.maxBits then .raise .invalidParameters
  else
    match parseInt operand with
    | none => .raise .invalidFormat
    | some (neg, n) =>
      if n ≥ 2 ^ (w - 1) then .raise .widthOverflow
      else if neg = true ∧ n > 0 then .done (.bits (true :: invert (bin (w - 1) n)))
      else .done (.bits (false :: bin (w - 1) n))

/-- OCDEC (rule R111). -/
def ocdec (operand : Text) : Reply :=
  match parseBits operand with
  | none => .raise .invalidFormat
  | some bs =>
    if bs.length > Config.maxBits then .raise .widthMismatch
    else if digit bs 0 then .done (.num true { sig := unsigned (invert bs), exp := 0 })
    else .done (.num false { sig := unsigned bs, exp := 0 })

/-! ### Two's-complement -/

/-- The integer of a sign tag and a magnitude: -n when the tag is set, n otherwise (00_scope.md rule R19). -/
def signedValue (neg : Bool) (n : Nat) : Int := if neg then -(n : Int) else n

/-- TCENC (rule R113; the range is that of 90_conflicts.md C2). -/
def tcenc (w : Nat) (operand : Text) : Reply :=
  if w < 1 ∨ w > Config.maxBits then .raise .invalidParameters
  else
    match parseInt operand with
    | none => .raise .invalidFormat
    | some (neg, n) =>
      let v := signedValue neg n
      if v < -2 ^ (w - 1) ∨ v > 2 ^ (w - 1) - 1 then .raise .widthOverflow
      else .done (.bits (bin w (v % 2 ^ w).toNat))

/-- TCDEC (rule R115; the sign bit decides, 90_conflicts.md C3). -/
def tcdec (operand : Text) : Reply :=
  match parseBits operand with
  | none => .raise .invalidFormat
  | some bs =>
    if bs.length > Config.maxBits then .raise .widthMismatch
    else
      let v : Int := (unsigned bs : Int) - bitValue (digit bs 0) * 2 ^ bs.length
      .done (.num (decide (v < 0)) { sig := v.natAbs, exp := 0 })

/-! ### The meanings -/

/-- Meaning of UENC (rules R100, R101). -/
def execUenc (w : Nat) (s : State) : Host.Outcome State Fault Refusal := .next (s.finish (uenc w s.operand))

/-- Meaning of UDEC (rules R100, R103). -/
def execUdec (s : State) : Host.Outcome State Fault Refusal := .next (s.finish (udec s.operand))

/-- Meaning of SMENC (rules R100, R105). -/
def execSmenc (w : Nat) (s : State) : Host.Outcome State Fault Refusal := .next (s.finish (smenc w s.operand))

/-- Meaning of SMDEC (rules R100, R107). -/
def execSmdec (s : State) : Host.Outcome State Fault Refusal := .next (s.finish (smdec s.operand))

/-- Meaning of OCENC (rules R100, R109). -/
def execOcenc (w : Nat) (s : State) : Host.Outcome State Fault Refusal := .next (s.finish (ocenc w s.operand))

/-- Meaning of OCDEC (rules R100, R111). -/
def execOcdec (s : State) : Host.Outcome State Fault Refusal := .next (s.finish (ocdec s.operand))

/-- Meaning of TCENC (rules R100, R113). -/
def execTcenc (w : Nat) (s : State) : Host.Outcome State Fault Refusal := .next (s.finish (tcenc w s.operand))

/-- Meaning of TCDEC (rules R100, R115). -/
def execTcdec (s : State) : Host.Outcome State Fault Refusal := .next (s.finish (tcdec s.operand))

end Sys2Proof.Machine
end

