-- ==== Sys2Proof/Machine/Dispatch.lean ====
section
/-!
DEFINITION. The dispatch of rule R62 of 30_encoding.md over decoded instructions: one arm per operation. A field that an
operation ignores (rules R64, R66) is not passed to its meaning.
-/

namespace Sys2Proof.Machine

def exec (i : Instr) (s : State) : Host.Outcome State Fault Refusal :=
  match i with
  | .uenc w _ _ => Sys2Proof.Machine.execUenc w s
  | .udec _ _ _ => Sys2Proof.Machine.execUdec s
  | .smenc w _ _ => Sys2Proof.Machine.execSmenc w s
  | .smdec _ _ _ => Sys2Proof.Machine.execSmdec s
  | .ocenc w _ _ => Sys2Proof.Machine.execOcenc w s
  | .ocdec _ _ _ => Sys2Proof.Machine.execOcdec s
  | .tcenc w _ _ => Sys2Proof.Machine.execTcenc w s
  | .tcdec _ _ _ => Sys2Proof.Machine.execTcdec s
  | .fxenc _ k j => Sys2Proof.Machine.execFxenc k j s
  | .fxdec _ k j => Sys2Proof.Machine.execFxdec k j s
  | .f32enc w _ _ => Sys2Proof.Machine.execF32enc w s
  | .f32dec _ _ _ => Sys2Proof.Machine.execF32dec s
  | .f64enc w _ _ => Sys2Proof.Machine.execF64enc w s
  | .f64dec _ _ _ => Sys2Proof.Machine.execF64dec s

end Sys2Proof.Machine
end

