-- ==== Sys2Proof/Machine/Issue.lean ====
section
/-!
DEFINITION. What each action of the host does. An issue is the block's one step, `Issue(cmd, operand)` (10_state.md rule R27):
the command word is decoded, the operation runs and writes RSP; after every action the host's list moves on.
-/

namespace Sys2Proof.Machine

/-- `Issue(cmd, operand)` for an admitted request, the request still at the head of the host's list: an illegal command word
raises IllegalOperation without looking at the operand (30_encoding.md rules R62, R68), every other runs its operation; then the
host's list moves on (rule R26). -/
def issue (cmd : CmdWord) (s : State) : Host.Outcome State Fault Refusal :=
  match decode cmd with
  | .error _ => .next (s.raise .illegalOperation).advance
  | .ok i =>
    match exec i s with
    | .next t => .next t.advance
    | .fault r => .fault r
    | .refused r => .refused r

/-- The action at the head of the host's list happens: reset (rule R240), power removed and restored (rule R217), or a
request, refused when its operand is too long (60_exceptions.md rule R206). DESIGN CHOICE (assumption log 7): the rule does
not say what becomes of the host's later actions; a refusal is no state, so the refused request stays at the head of the list
and a run of steps ends there. -/
def perform (a : HostAction) (s : State) : Host.Outcome State Fault Refusal :=
  match a with
  | .reset => .next s.applyReset.advance
  | .powerCycle => .next s.applyPowerCycle.advance
  | .issue cmd operand => if operandFits operand then issue cmd s else .refused .operandTooLong

end Sys2Proof.Machine
end

