-- ==== Sys2Proof/Machine/Step.lean ====
section
/-!
DEFINITION. One step of the machine: the host's next action happens (10_state.md rules R26, R27).
-/

namespace Sys2Proof.Machine

/-- One step. With no action of the host pending nothing happens (assumption log 1). -/
def step (s : State) : Host.Outcome State Fault Refusal :=
  match s.nextAction with
  | none => .next s
  | some a => perform a s

/-- The state in which the host's very next action is to issue the command word of a table row with the empty operand: the
block fetches nothing, a command "travels with each request" (20_memory.md rule R47; assumption log 4). -/
def State.withFetchWord (s : State) (nbits w : Nat) : State :=
  { s with pending := .issue (tableWord nbits w) [] :: s.pending }

end Sys2Proof.Machine
end

