-- ==== Sys2Proof/Machine/Assembler.lean ====
section
/-!
DEFINITION. The host's side of the spec: the rendering of a result as text (30_encoding.md rule R89), the assembler's lines,
defaults and text form (rules R86, R87) and the source's example calls (rule R88). None of it is part of the block: no step
of the machine reads it. Details that rule R86 leaves open are in assumption log 5.
-/

namespace Sys2Proof.Machine

/-- The octets of a string of ASCII characters (30_encoding.md rule R80). -/
def ascii (s : String) : Text := s.toList.map (fun c => BitVec.ofNat 8 c.toNat)

/-! ### Render (rule R89) -/

/-- The octet of a decimal digit 0 to 9. -/
def digitChar (d : Nat) : Byte := BitVec.ofNat 8 (0x30 + d)

/-- The base-10 digits of n without leading zeros, from at most `fuel` divisions by 10. -/
def decimalTextFuel : Nat → Nat → Text
  | 0, n => [digitChar (n % 10)]
  | fuel + 1, n => if n < 10 then [digitChar n] else decimalTextFuel fuel (n / 10) ++ [digitChar (n % 10)]

/-- The base-10 digits of n without leading zeros, a single `0` for 0. -/
def decimalText (n : Nat) : Text := decimalTextFuel n.log2 n

/-- The last p base-10 digits of n, with leading zeros. -/
def paddedText : Nat → Nat → Text
  | 0, _ => []
  | p + 1, n => paddedText p (n / 10) ++ [digitChar (n % 10)]

/-- The exact decimal text of a magnitude: for the canonical pair (sig, e) with e = -p < 0, sig is odd and the fraction
(sig mod 2^p) / 2^p is ((sig mod 2^p) * 5^p) / 10^p, whose last digit is not 0 (rule R89). -/
def renderMag (q : Mag) : Text :=
  let c := q.canon
  if c.exp ≥ 0 then decimalText (c.sig * 2 ^ c.exp.toNat)
  else
    let p := (-c.exp).toNat
    decimalText (c.sig / 2 ^ p) ++ chPoint :: paddedText p (c.sig % 2 ^ p * 5 ^ p)

/-- The digits of a bit string as text. -/
def bitsText (bs : BitString) : Text := bs.map (fun b => if b then chOne else chZero)

/-- `"-"` when the sign tag is set. -/
def signText (neg : Bool) : Text := if neg then [chMinus] else []

/-- `Render(r)`; none for NONE (rule R89). -/
def render : Result → Option Text
  | .none => none
  | .bits bs => some (bitsText bs)
  | .num neg q => some (signText neg ++ renderMag q)
  | .inf neg => some (signText neg ++ wordInf)
  | .nan => some wordNan

/-- The result the host reads from RSP (30_encoding.md rule R75; 20_memory.md rule R36). Tags above 4 are never written. -/
def Rsp.result (r : Rsp) : Result :=
  match r.resTag.toNat with
  | 1 => .bits (bin r.resLen.toNat r.resSig.toNat)
  | 2 => .num (r.resNeg == 1) { sig := r.resSig.toNat, exp := r.resExp.toInt }
  | 3 => .inf (r.resNeg == 1)
  | 4 => .nan
  | _ => .none

/-! ### The assembler (rules R86, R87) -/

/-- The operand of an assembler line: literal octets, or `$prev` (rules R86, R89). -/
inductive AsmOperand where
  | text (t : Text)
  | prev
deriving DecidableEq, Repr

/-- An assembler line (rule R86). -/
inductive AsmLine where
  /-- `<mnemonic> [w=<n>] [k=<n>] [j=<n>] "<operand>"` -/
  | op (mnemonic : String) (w k j : Option Nat) (operand : AsmOperand)
  /-- `.cmd <32-bit hex word> "<operand>"` -/
  | cmd (word : CmdWord) (operand : AsmOperand)
deriving DecidableEq, Repr

/-- Why a line does not assemble. -/
inductive AsmError where
  /-- The text is no line of rule R86. -/
  | badLine
  /-- The mnemonic is none of rule R70. -/
  | unknownMnemonic
  /-- A value does not fit its 7-bit field (assumption log 5). -/
  | fieldTooLarge
  /-- `$prev` after a request whose result is NONE (rule R89), or with no previous request and NONE in RSP (assumption
  log 6). -/
  | noPreviousResult
deriving DecidableEq, Repr

/-- The value of an omitted `w=` (rules R86, R87). -/
def defaultWidth (mnemonic : String) : Nat :=
  if mnemonic ∈ ["UENC", "SMENC", "OCENC", "TCENC", "F32ENC"] then 32
  else if mnemonic = "F64ENC" then 64
  else 0

/-- `CMD = OPC | (W << 4) | (K << 11) | (J << 18)` (rule R86). -/
def assembledWord (opc : CmdWord) (w k j : Nat) : CmdWord :=
  opc ||| (BitVec.ofNat 32 w <<< 4) ||| (BitVec.ofNat 32 k <<< 11) ||| (BitVec.ofNat 32 j <<< 18)

/-- The row of rule R70 with a given mnemonic. -/
def rowOf (mnemonic : String) : Option OpcodeRow := opcodeTable.find? (fun row => row.mnemonic == mnemonic)

/-- The octets an operand stands for, given RSP after the previous request (rule R89). DESIGN CHOICE (assumption log 6): the
rule speaks only of a previous request of the same program; where there is none, on the first line or right after a reset,
`$prev` still stands for what RSP holds, and is the assembly error noPreviousResult when that is NONE. -/
def operandText (rsp : Rsp) : AsmOperand → Except AsmError Text
  | .text t => .ok t
  | .prev =>
    match render rsp.result with
    | some t => .ok t
    | none => .error .noPreviousResult

/-- Assemble one line into the request it stands for (rules R86, R87, R89). -/
def assemble (rsp : Rsp) : AsmLine → Except AsmError HostAction
  | .cmd word operand =>
    match operandText rsp operand with
    | .ok t => .ok (.issue word t)
    | .error e => .error e
  | .op mnemonic w k j operand =>
    match rowOf mnemonic with
    | none => .error .unknownMnemonic
    | some row =>
      let w := w.getD (defaultWidth mnemonic)
      let k := k.getD 0
      let j := j.getD 0
      if fitsField w && fitsField k && fitsField j then
        match operandText rsp operand with
        | .ok t => .ok (.issue (assembledWord row.matchWord w k j) t)
        | .error e => .error e
      else .error .fieldTooLarge

/-! ### The text of a line (rule R86) -/

/-- The words of a text: its maximal runs of octets that are no spaces. `current` is the word begun so far. -/
def wordsFrom (current : Text) : Text → List Text
  | [] => if current.isEmpty then [] else [current]
  | c :: t =>
    if c = chSpace then (if current.isEmpty then wordsFrom [] t else current :: wordsFrom [] t)
    else wordsFrom (current ++ [c]) t

/-- The value of a hexadecimal digit. -/
def hexDigit (c : Byte) : Option Nat :=
  if isDigit c then some (digitValue c)
  else
    let v := (lowerCase c).toNat
    if 0x61 ≤ v ∧ v ≤ 0x66 then some (v - 0x61 + 10) else none

/-- The value of hexadecimal digits, most significant first, after the value `acc`. -/
def hexValue (acc : Nat) : Text → Option Nat
  | [] => some acc
  | c :: t =>
    match hexDigit c with
    | some d => hexValue (16 * acc + d) t
    | none => none

/-- `0x` and one to eight hexadecimal digits. -/
def parseHexWord : Text → Option CmdWord
  | z :: x :: ds =>
    if z = chZero ∧ x = 0x78#8 ∧ 1 ≤ ds.length ∧ ds.length ≤ 8 then (hexValue 0 ds).map (BitVec.ofNat 32) else none
  | _ => none

/-- An optional `<letter>=<n>` at the head of the words: its value if it stands there, and the words after it. -/
def takeOption (letter : Byte) : List Text → Option (Option Nat × List Text)
  | (c :: e :: ds) :: rest =>
    if c = letter ∧ e = 0x3D#8 then
      match parseDigits ds with
      | some n => some (some n, rest)
      | none => none
    else some (none, (c :: e :: ds) :: rest)
  | ws => some (none, ws)

/-- `[w=<n>] [k=<n>] [j=<n>]` and nothing more. -/
def parseOptions (ws : List Text) : Option (Option Nat × Option Nat × Option Nat) :=
  match takeOption 0x77#8 ws with
  | none => none
  | some (w, ws) =>
    match takeOption 0x6B#8 ws with
    | none => none
    | some (k, ws) =>
      match takeOption 0x6A#8 ws with
      | some (j, []) => some (w, k, j)
      | _ => none

/-- The line of the words before the operand. -/
def parseHead (ws : List Text) (operand : AsmOperand) : Except AsmError AsmLine :=
  match ws with
  | [] => .error .badLine
  | m :: opts =>
    if m = ascii ".cmd" then
      match opts with
      | [h] =>
        match parseHexWord h with
        | some word => .ok (.cmd word operand)
        | none => .error .badLine
      | _ => .error .badLine
    else
      match opcodeTable.find? (fun row => ascii row.mnemonic == m) with
      | none => .error .unknownMnemonic
      | some row =>
        match parseOptions opts with
        | some (w, k, j) => .ok (.op row.mnemonic w k j operand)
        | none => .error .badLine

/-- Read one line: the operand is what stands between the first double quote and the line's last octet, which must be a
double quote, "exactly as its octets", or the word `$prev` without quotes (rules R86, R89). -/
def parseLine (line : Text) : Except AsmError AsmLine :=
  match splitFirst 0x22#8 line with
  | (head, some rest) =>
    if rest.getLast? = some 0x22#8 then parseHead (wordsFrom [] head) (.text rest.dropLast) else .error .badLine
  | (head, none) =>
    let ws := wordsFrom [] head
    if ws.getLast? = some (ascii "$prev") then parseHead ws.dropLast .prev else .error .badLine

/-! ### The source's example calls (rule R88) -/

/-- The calls of the source's examples, by the source's names. -/
inductive SourceCall where
  | decToBin (v : Text) (w : Nat)
  | decToSignMagnitude (v : Text) (w : Nat)
  | decToTwosComplement (v : Text) (w : Nat)
  | twosComplementToDec (bits : Text)
  | fixedPointToDec (bits : Text) (k j : Nat)
  | fixedPointEncode (x : Text) (k j : Nat)
  | ieee32Encode (v : Text)
  | ieee64Encode (v : Text)
deriving DecidableEq, Repr

/-- The request a call of the source maps to (rule R88). -/
def SourceCall.line : SourceCall → AsmLine
  | .decToBin v w => .op "UENC" (some w) none none (.text v)
  | .decToSignMagnitude v w => .op "SMENC" (some w) none none (.text v)
  | .decToTwosComplement v w => .op "TCENC" (some w) none none (.text v)
  | .twosComplementToDec b => .op "TCDEC" none none none (.text b)
  | .fixedPointToDec b k j => .op "FXDEC" none (some k) (some j) (.text b)
  | .fixedPointEncode x k j => .op "FXENC" none (some k) (some j) (.text x)
  | .ieee32Encode v => .op "F32ENC" (some 32) none none (.text v)
  | .ieee64Encode v => .op "F64ENC" (some 64) none none (.text v)

end Sys2Proof.Machine
end

