-- ==== Sys2Proof/Machine/Program.lean ====
section
/-!
DEFINITION. A program as the spec means it: a host-side list of requests, issued one by one in order (10_state.md rule R26;
30_encoding.md rule R89). It drives the machine from outside; the machine itself holds no program and no program counter.
-/

namespace Sys2Proof.Machine

/-- An item of a program: a request in assembler form, or a reset (95_test_vectors.md section 3). -/
inductive ProgramItem where
  | line (l : AsmLine)
  | reset
deriving DecidableEq, Repr

/-- How a program ends. -/
inductive ProgramOutcome where
  /-- Every item was done. -/
  | done (s : State)
  /-- A line did not assemble. -/
  | asmError (e : AsmError)
  /-- A step faulted. -/
  | fault (r : Fault)
  /-- A request was not admitted. -/
  | refused (r : Refusal)
deriving Repr

/-- The action an item stands for when RSP holds `rsp`. -/
def ProgramItem.action (rsp : Rsp) : ProgramItem → Except AsmError HostAction
  | .line l => assemble rsp l
  | .reset => .ok .reset

/-- One item: the host reads RSP, assembles the item and lets its action be the machine's next one (rules R26, R27, R89).
`$prev` in an item with no previous request of the program reads RSP all the same (DESIGN CHOICE, assumption log 6). -/
def runItem (item : ProgramItem) (s : State) : ProgramOutcome :=
  match item.action s.readRsp with
  | .error e => .asmError e
  | .ok a =>
    match step { s with pending := a :: s.pending } with
    | .next t => .done t
    | .fault r => .fault r
    | .refused r => .refused r

/-- The items in order; "pc" advances by one per request and has no other form of control transfer (rule R26). -/
def runProgram : List ProgramItem → State → ProgramOutcome
  | [], s => .done s
  | item :: rest, s =>
    match runItem item s with
    | .done t => runProgram rest t
    | stopped => stopped

end Sys2Proof.Machine
end

