-- ==== Sys2Proof/Safety.lean ====
section
/-!
DEFINITION. The terms in which claims about the machine are stated, written from the spec's words and not from the model's
functions: what an operand text means as a grammar (30_encoding.md rules R81 to R84), what RSP holds after an outcome
(rules R74, R75), and which contents of RSP are legal (10_state.md rules R22, R28, R33).
-/

namespace Sys2Proof.Safety

open Sys2Proof.Machine

/-! ### Operand texts (rules R81 to R84) -/

/-- `sign?`: nothing, `+` (0x2B) or `-` (0x2D); neg exactly for `-` (rule R82). -/
def SignText (sg : Text) (neg : Bool) : Prop :=
  (sg = [] ∧ neg = false) ∨ (sg = [0x2B#8] ∧ neg = false) ∨ (sg = [0x2D#8] ∧ neg = true)

/-- `digit+` with the value n in base 10; a digit is 0x30 to 0x39 (rule R82). -/
def DigitsText (ds : Text) (n : Nat) : Prop :=
  ds ≠ [] ∧ (∀ c ∈ ds, 0x30 ≤ c.toNat ∧ c.toNat ≤ 0x39) ∧
    n = Nat.ofDigits 10 (ds.reverse.map (fun c => c.toNat - 0x30))

/-- The whole operand matches `sign? digit+` and means (neg, n) (rule R82). -/
def IntText (operand : Text) (neg : Bool) (n : Nat) : Prop :=
  ∃ sg ds, operand = sg ++ ds ∧ SignText sg neg ∧ DigitsText ds n

/-- The whole operand matches `sign? digit+ ( '.' digit+ )?` and means (neg, a) with a = I + F / 10^d (rule R83). -/
def DecText (operand : Text) (neg : Bool) (a : ℚ) : Prop :=
  ∃ sg ids i, SignText sg neg ∧ DigitsText ids i ∧
    ((operand = sg ++ ids ∧ a = i) ∨
      ∃ fds f, DigitsText fds f ∧ operand = sg ++ ids ++ 0x2E#8 :: fds ∧ a = i + f / 10 ^ fds.length)

/-- The whole operand matches `sign? word`, the letters compared without regard to ASCII case; `word` is written in
lower case (rule R84). -/
def WordText (operand : Text) (neg : Bool) (word : Text) : Prop :=
  ∃ sg body, operand = sg ++ body ∧ SignText sg neg ∧ List.Forall₂ (fun c l => c = l ∨ c = l - 0x20#8) body word

/-- `sign? ( "inf" | "infinity" )` (rule R84). -/
def InfText (operand : Text) (neg : Bool) : Prop :=
  WordText operand neg [0x69#8, 0x6E#8, 0x66#8] ∨
    WordText operand neg [0x69#8, 0x6E#8, 0x66#8, 0x69#8, 0x6E#8, 0x69#8, 0x74#8, 0x79#8]

/-- `sign? "nan"` (rule R84). -/
def NanText (operand : Text) (neg : Bool) : Prop := WordText operand neg [0x6E#8, 0x61#8, 0x6E#8]

/-- With every space (0x20), `.` (0x2E) and `-` (0x2D) removed, the operand is the non-empty digit string bs (rule R81). -/
def BitText (operand : Text) (bs : BitString) : Prop :=
  bs ≠ [] ∧ operand.filter (fun c => c ≠ 0x20#8 ∧ c ≠ 0x2E#8 ∧ c ≠ 0x2D#8) =
    bs.map (fun b => if b then 0x31#8 else 0x30#8)

/-- `U(bs)` as the sum of rule R16. -/
def uValue (bs : BitString) : Nat :=
  ∑ i ∈ Finset.range bs.length, (if bs.getD i false then 1 else 0) * 2 ^ (bs.length - 1 - i)

/-! ### What RSP holds after an outcome (rules R28, R74, R75) -/

/-- An error: its code, no result (rules R28, R200). -/
def IsError (code : Nat) (r : Rsp) : Prop :=
  r.rspValid = 1 ∧ r.rspStatus.toNat = code ∧ r.resTag = 0 ∧ r.resNeg = 0 ∧ r.resLen = 0 ∧ r.resSig = 0 ∧ r.resExp = 0

/-- OK with BITS(bs), where len(bs) = len and U(bs) = sig (rule R75). -/
def IsBits (len sig : Nat) (r : Rsp) : Prop :=
  r.rspValid = 1 ∧ r.rspStatus = 0 ∧ r.resTag = 1 ∧ r.resNeg = 0 ∧ r.resLen.toNat = len ∧ r.resSig.toNat = sig ∧
    r.resExp = 0

/-- OK with NUM(neg, q): the canonical pair with q = sig * 2^e (rule R75). -/
def IsNum (neg : Bool) (q : ℚ) (r : Rsp) : Prop :=
  r.rspValid = 1 ∧ r.rspStatus = 0 ∧ r.resTag = 2 ∧ (r.resNeg = 1 ↔ neg = true) ∧ r.resLen = 0 ∧
    (r.resSig.toNat : ℚ) * 2 ^ r.resExp.toInt = q ∧
    (q = 0 → r.resSig = 0 ∧ r.resExp = 0) ∧ (q ≠ 0 → r.resSig.toNat % 2 = 1)

/-- OK with INF(neg) (rule R75). -/
def IsInf (neg : Bool) (r : Rsp) : Prop :=
  r.rspValid = 1 ∧ r.rspStatus = 0 ∧ r.resTag = 3 ∧ (r.resNeg = 1 ↔ neg = true) ∧ r.resLen = 0 ∧ r.resSig = 0 ∧
    r.resExp = 0

/-- OK with NAN (rule R75). -/
def IsNan (r : Rsp) : Prop :=
  r.rspValid = 1 ∧ r.rspStatus = 0 ∧ r.resTag = 4 ∧ r.resNeg = 0 ∧ r.resLen = 0 ∧ r.resSig = 0 ∧ r.resExp = 0

/-- The instruction completes: exec answers a next state that differs from s in RSP only, and RSP satisfies P. -/
def Answers (i : Instr) (s : State) (P : Rsp → Prop) : Prop :=
  ∃ r, exec i s = .next { s with rsp := r } ∧ P r

/-! ### Legal contents of RSP -/

/-- RSP holds what the block can have written: the legal values of rule R22, an error without a result (rule R28), fields
not named for a kind 0 and NUM in canonical form (rule R75), all zero before the first operation (rule R33). -/
structure RspLegal (r : Rsp) : Prop where
  status_named : r.rspStatus.toNat ≤ 7
  tag_named : r.resTag.toNat ≤ 4
  not_valid : r.rspValid = 0 → r = Rsp.reset
  error_without_result : r.rspStatus ≠ 0 → r.resTag = 0
  ok_with_result : r.rspValid = 1 → r.rspStatus = 0 → r.resTag ≠ 0
  none_fields : r.resTag = 0 → r.resNeg = 0 ∧ r.resLen = 0 ∧ r.resSig = 0 ∧ r.resExp = 0
  bits_fields : r.resTag = 1 →
    r.resNeg = 0 ∧ 1 ≤ r.resLen.toNat ∧ r.resLen.toNat ≤ 64 ∧ r.resSig.toNat < 2 ^ r.resLen.toNat ∧ r.resExp = 0
  num_fields : r.resTag = 2 →
    r.resLen = 0 ∧ (r.resSig = 0 → r.resExp = 0) ∧ (r.resSig ≠ 0 → r.resSig.toNat % 2 = 1) ∧
      -1075 ≤ r.resExp.toInt ∧ r.resExp.toInt ≤ 1023
  inf_fields : r.resTag = 3 → r.resLen = 0 ∧ r.resSig = 0 ∧ r.resExp = 0
  nan_fields : r.resTag = 4 → r.resNeg = 0 ∧ r.resLen = 0 ∧ r.resSig = 0 ∧ r.resExp = 0

/-- The machine's invariant: RSP is legal. The host's pending actions may be anything. -/
def Inv (s : State) : Prop := RspLegal s.rsp

/-- A request the port admits: not more than OPERAND_CAPACITY octets (rule R206). The other actions are always possible. -/
def Admitted : HostAction → Prop
  | .issue _ operand => operand.length ≤ Config.operandCapacity
  | .reset => True
  | .powerCycle => True

end Sys2Proof.Safety
end

