-- ==== Sys2Proof/Certificates/Slice0/Obligations.lean ====
section
/-!
DEFINITION. The statements for the provers. They are written in the terms of Sys2Proof/Safety.lean, which come from the spec's
words; R<n> are the numbered rules of spec/.
-/

open Sys2Proof Sys2Proof.Machine Sys2Proof.Safety

/-! ## Encoding -/

/-- Decoding the command word of a well-formed instruction gives the instruction back, every field at every value (rules
R61, R65, R70). -/
def Obligations.DecodeEncodeRoundTrip : Prop :=
  ∀ i : Instr, i.WellFormed → decode (encode i) = .ok i

/-- A command word that decodes is the encoding of the well-formed instruction it decodes to: no two words mean the same
instruction (rules R61, R65, R67). -/
def Obligations.EncodeDecodeRoundTrip : Prop :=
  ∀ (cmd : CmdWord) (i : Instr), decode cmd = .ok i → i.WellFormed ∧ encode i = cmd

/-- Command words written out from rule R61 and the request column of 95_test_vectors.md decode to their instructions. -/
def Obligations.SampleCommandWordsDecode : Prop :=
  decode 0x00000080#32 = .ok (.uenc 8 0 0) ∧ decode 0x01FFFFF1#32 = .ok (.udec 127 127 127) ∧
  decode 0x00000402#32 = .ok (.smenc 64 0 0) ∧ decode 0x00000003#32 = .ok (.smdec 0 0 0) ∧
  decode 0x00000084#32 = .ok (.ocenc 8 0 0) ∧ decode 0x00000005#32 = .ok (.ocdec 0 0 0) ∧
  decode 0x00000086#32 = .ok (.tcenc 8 0 0) ∧ decode 0x00000007#32 = .ok (.tcdec 0 0 0) ∧
  decode 0x00102008#32 = .ok (.fxenc 0 4 4) ∧ decode 0x00100809#32 = .ok (.fxdec 0 1 4) ∧
  decode 0x0000020A#32 = .ok (.f32enc 32 0 0) ∧ decode 0x0000000B#32 = .ok (.f32dec 0 0 0) ∧
  decode 0x0000040C#32 = .ok (.f64enc 64 0 0) ∧ decode 0x0000000D#32 = .ok (.f64dec 0 0 0) ∧
  decode 0x0000000E#32 = .error .reservedOpcode ∧ decode 0x02000080#32 = .error .reservedBitsSet

/-- Rule R70: an operation is selected when `(CMD & 0xFE00000F) == match`. The rows of the table that a word selects are
exactly the row of the instruction it decodes to, and no row for an illegal word. -/
def Obligations.MaskAndMatchSelectTheOperation : Prop :=
  ∀ cmd : CmdWord,
    (opcodeTable.filter (fun row => row.selects cmd)).map OpcodeRow.mnemonic =
      match decode cmd with
      | .ok i => [i.mnemonic]
      | .error _ => []

/-- Rule R63: the decoder written from the structure of OPC agrees with the one written from the table. -/
def Obligations.StructuralDecoderAgrees : Prop :=
  ∀ cmd : CmdWord, decodeByStructure cmd = decode cmd

/-- Rule R69: every command word is either one of the fourteen operations, with any values in its fields, or illegal by
rule R68 (RSV not 0, or OPC = 0xE or 0xF). -/
def Obligations.EveryWordIsAnOperationOrIllegal : Prop :=
  ∀ cmd : CmdWord,
    (∃ i : Instr, i.WellFormed ∧ encode i = cmd) ↔ ¬(cmd.toNat / 2 ^ 25 ≠ 0 ∨ 14 ≤ cmd.toNat % 16)

/-- Rule R68: a command word with RSV not 0, or OPC = 0xE or 0xF, completes as one step with IllegalOperation (7) and no
result, whatever the (admitted) operand is. -/
def Obligations.IllegalWordsAnswerIllegalOperation : Prop :=
  ∀ (s : State) (cmd : CmdWord) (operand : Text) (rest : List HostAction),
    s.pending = .issue cmd operand :: rest → operand.length ≤ Config.operandCapacity →
    (cmd.toNat / 2 ^ 25 ≠ 0 ∨ 14 ≤ cmd.toNat % 16) →
    ∃ t, step s = .next t ∧ IsError 7 t.rsp

/-- Rule R66: a field that an operation ignores (rule R64) may hold any value, and the operation behaves as if it held 0. -/
def Obligations.IgnoredFieldsHaveNoEffect : Prop :=
  ∀ (w k j : Nat) (s : State),
    exec (.uenc w k j) s = exec (.uenc w 0 0) s ∧ exec (.udec w k j) s = exec (.udec 0 0 0) s ∧
    exec (.smenc w k j) s = exec (.smenc w 0 0) s ∧ exec (.smdec w k j) s = exec (.smdec 0 0 0) s ∧
    exec (.ocenc w k j) s = exec (.ocenc w 0 0) s ∧ exec (.ocdec w k j) s = exec (.ocdec 0 0 0) s ∧
    exec (.tcenc w k j) s = exec (.tcenc w 0 0) s ∧ exec (.tcdec w k j) s = exec (.tcdec 0 0 0) s ∧
    exec (.fxenc w k j) s = exec (.fxenc 0 k j) s ∧ exec (.fxdec w k j) s = exec (.fxdec 0 k j) s ∧
    exec (.f32enc w k j) s = exec (.f32enc w 0 0) s ∧ exec (.f32dec w k j) s = exec (.f32dec 0 0 0) s ∧
    exec (.f64enc w k j) s = exec (.f64enc w 0 0) s ∧ exec (.f64dec w k j) s = exec (.f64dec 0 0 0) s

/-! ## The step, the host's actions and reset -/

/-- Rule R27 with rule R26: when the next action is to issue the command word of a well-formed instruction with an admitted
operand, the step is exec of that instruction at this very state, and then the host's list moves on by one (log 1). -/
def Obligations.StepRunsTheDecodedInstruction : Prop :=
  ∀ (s : State) (i : Instr) (operand : Text) (rest : List HostAction),
    i.WellFormed → s.pending = .issue (encode i) operand :: rest → operand.length ≤ Config.operandCapacity →
    s.operand = operand ∧
    step s = match exec i s with
      | .next t => .next { t with pending := rest }
      | .fault r => .fault r
      | .refused r => .refused r

/-- Rule R206: a step is refused exactly when the next action is a request whose operand has more than OPERAND_CAPACITY
octets; no step happens then. -/
def Obligations.RefusedExactlyWhenOperandTooLong : Prop :=
  ∀ (s : State) (r : Refusal),
    step s = .refused r ↔
      r = .operandTooLong ∧
        ∃ cmd operand rest, s.pending = .issue cmd operand :: rest ∧ Config.operandCapacity < operand.length

/-- Rules R15 and R38: OPERAND_CAPACITY is at least 70, so every request with at most 70 octets of operand, the empty operand
too, is admitted, and its step completes with a valid response. That the host's list then moves on by one is the model's
choice (log 1). -/
def Obligations.OperandsOfSeventyOctetsAreAdmitted : Prop :=
  70 ≤ Config.operandCapacity ∧
  ∀ (s : State) (cmd : CmdWord) (operand : Text) (rest : List HostAction),
    s.pending = .issue cmd operand :: rest → operand.length ≤ 70 →
    ∃ r, step s = .next { rsp := r, pending := rest } ∧ r.rspValid = 1

/-- Rule R33: after reset every RSP field is 0. -/
def Obligations.ResetStateHoldsResetValues : Prop :=
  State.reset.rsp.rspValid = 0 ∧ State.reset.rsp.rspStatus = 0 ∧ State.reset.rsp.resTag = 0 ∧
  State.reset.rsp.resNeg = 0 ∧ State.reset.rsp.resLen = 0 ∧ State.reset.rsp.resSig = 0 ∧ State.reset.rsp.resExp = 0

/-- Rules R240 and R217: reset, and the removal and restoration of power, set every RSP field to 0, from any state. That the
host's list then moves on by one is the model's choice (log 1). -/
def Obligations.ResetActionZeroesRsp : Prop :=
  ∀ (s : State) (a : HostAction) (rest : List HostAction),
    s.pending = a :: rest → (a = .reset ∨ a = .powerCycle) →
    step s = .next { rsp := ⟨0, 0, 0, 0, 0, 0, 0⟩, pending := rest }

/-- With no action of the host pending a step changes nothing. The model's own choice (log 1), no rule of the spec. -/
def Obligations.IdleStepChangesNothing : Prop :=
  ∀ s : State, s.pending = [] → step s = .next s

/-- Rules R27 and R28, over all instructions: exec always completes, writes RSP and nothing else, and leaves RSP_VALID = 1. -/
def Obligations.EveryInstructionWritesOnlyRsp : Prop :=
  ∀ (i : Instr) (s : State), ∃ r, exec i s = .next { rsp := r, pending := s.pending } ∧ r.rspValid = 1

/-- Rule R29: the response depends on the operand and the command alone. Two states of one instance with the same operand on the port,
whatever RSP and the later actions are, get the same response. -/
def Obligations.ResponseIgnoresThePreviousResponse : Prop :=
  ∀ (i : Instr) (s t : State), s.operand = t.operand →
    ∃ r, exec i s = .next { s with rsp := r } ∧ exec i t = .next { t with rsp := r }

/-- Rule R40: issuing the same request twice leaves the same RSP as issuing it once. That the two requests stand in the host's
list, which then moves on, is the model's choice (log 1). -/
def Obligations.IssuingTwiceLeavesTheSameRsp : Prop :=
  ∀ (s t : State) (cmd : CmdWord) (operand : Text) (rest : List HostAction),
    s.pending = .issue cmd operand :: .issue cmd operand :: rest → step s = .next t →
    step t = .next { rsp := t.rsp, pending := rest }

/-- Rules R43, R240 and R217: after any list of admitted actions, taken in order from any state, RSP holds the response of the
last one, which is what that action alone leaves from reset. That the run goes on through the list after a reset or a power
cycle, and ends with no action pending, is the model's choice (log 1). -/
def Obligations.RspHoldsTheLastResponse : Prop :=
  ∀ (s : State) (before : List HostAction) (last : HostAction),
    (∀ a ∈ before, Admitted a) → Admitted last → s.pending = before ++ [last] →
    ∃ r u, Host.Core.run core (before.length + 1) s = .next { rsp := r, pending := [] } ∧
      step { State.reset with pending := [last] } = .next u ∧ r = u.rsp

/-! ## Legal responses -/

/-- RSP is legal after reset (rules R22, R33). -/
def Obligations.LegalRspAtReset : Prop := Inv State.reset

/-- From every state with a legal RSP, every step leaves a legal RSP (rules R22, R28, R72, R75): status 0 to 7, tag 0 to 4, an
error without a result, BITS of 1 to 64 digits with no bit above its length, NUM in canonical form with its exponent from
-1075 to 1023. -/
def Obligations.EveryStepKeepsRspLegal : Prop :=
  ∀ s t : State, Inv s → step s = .next t → Inv t

/-- Rule R28: when the status is not OK every RES_* field is 0; no partial result is returned. -/
def Obligations.FailedOperationLeavesNoResult : Prop :=
  ∀ (i : Instr) (s t : State), exec i s = .next t → t.rsp.rspStatus ≠ 0 →
    IsError t.rsp.rspStatus.toNat t.rsp

/-- The last column of rule R201: which status codes each operation can leave. -/
def Obligations.StatusCodesOfEachOperation : Prop :=
  ∀ (i : Instr) (s t : State), exec i s = .next t →
    t.rsp.rspStatus.toNat ∈ (match i with
      | .uenc _ _ _ => [0, 1, 2, 4, 5]
      | .smenc _ _ _ | .ocenc _ _ _ | .tcenc _ _ _ | .fxenc _ _ _ => [0, 1, 4, 5]
      | .udec _ _ _ | .smdec _ _ _ | .ocdec _ _ _ | .tcdec _ _ _ | .f32dec _ _ _ | .f64dec _ _ _ => [0, 1, 3]
      | .fxdec _ _ _ => [0, 1, 3, 5]
      | .f32enc _ _ _ | .f64enc _ _ _ => [0, 1, 4, 6])

/-- Rule R75: equal values give equal RES fields. -/
def Obligations.CanonicalPairIsUnique : Prop :=
  ∀ (r t : Rsp) (neg : Bool) (q : ℚ), IsNum neg q r → IsNum neg q t → r = t

/-! ## Bit strings and operand grammars -/

/-- Rules R16 and R17: the model's U is the sum of rule R16, and bin_n(v) is the unique n-digit string with U = v. -/
def Obligations.BinIsTheUniqueStringOfItsValue : Prop :=
  (∀ bs : BitString, unsigned bs = uValue bs) ∧
  ∀ (n v : Nat) (bs : BitString), v < 2 ^ n → ((bs.length = n ∧ uValue bs = v) ↔ bs = bin n v)

/-- Rule R81. -/
def Obligations.ParseBitsFollowsItsGrammar : Prop :=
  ∀ (operand : Text) (bs : BitString), parseBits operand = some bs ↔ BitText operand bs

/-- Rule R82. -/
def Obligations.ParseIntFollowsItsGrammar : Prop :=
  ∀ (operand : Text) (neg : Bool) (n : Nat), parseInt operand = some (neg, n) ↔ IntText operand neg n

/-- Rule R83: the result is (neg, a), a exact. -/
def Obligations.ParseDecFollowsItsGrammar : Prop :=
  ∀ (operand : Text) (neg : Bool) (a : ℚ),
    (∃ d, parseDec operand = some d ∧ d.neg = neg ∧ (d.num : ℚ) / 10 ^ d.scale = a) ↔ DecText operand neg a

/-- Rule R84. -/
def Obligations.ParseFloatFollowsItsGrammar : Prop :=
  ∀ (operand : Text) (neg : Bool) (a : ℚ),
    (parseFloat operand = some (.infv neg) ↔ InfText operand neg) ∧
    (parseFloat operand = some (.nanv neg) ↔ NanText operand neg) ∧
    ((∃ d, parseFloat operand = some (.fin d) ∧ d.neg = neg ∧ (d.num : ℚ) / 10 ^ d.scale = a) ↔ DecText operand neg a)

/-! ## The integer codecs -/

/-- Rule R101. -/
def Obligations.UencFollowsItsRule : Prop :=
  ∀ (w k j : Nat) (s : State),
    opcField (encode (.uenc w k j)) = 0x0#4 ∧
    (w < 1 ∨ 64 < w → Answers (.uenc w k j) s (IsError 5)) ∧
    (1 ≤ w → w ≤ 64 → (¬∃ neg n, IntText s.operand neg n) → Answers (.uenc w k j) s (IsError 1)) ∧
    ∀ (neg : Bool) (n : Nat), 1 ≤ w → w ≤ 64 → IntText s.operand neg n →
      (neg = true ∧ 0 < n → Answers (.uenc w k j) s (IsError 2)) ∧
      (¬(neg = true ∧ 0 < n) → 2 ^ w ≤ n → Answers (.uenc w k j) s (IsError 4)) ∧
      (¬(neg = true ∧ 0 < n) → n < 2 ^ w → Answers (.uenc w k j) s (IsBits w n))

/-- Rule R102: the natural bit length of n is the smallest L with n < 2^L, and UENC of a value that is not negative succeeds
exactly when it is at most w. -/
def Obligations.UencSucceedsExactlyWhenTheBitsFit : Prop :=
  (∀ n L : Nat, naturalBitLength n ≤ L ↔ n < 2 ^ L) ∧ naturalBitLength 0 = 0 ∧
  ∀ (w k j n : Nat) (neg : Bool) (s : State), 1 ≤ w → w ≤ 64 → IntText s.operand neg n → ¬(neg = true ∧ 0 < n) →
    ((∃ len sig, Answers (.uenc w k j) s (IsBits len sig)) ↔ naturalBitLength n ≤ w)

/-- Rule R103. -/
def Obligations.UdecFollowsItsRule : Prop :=
  ∀ (w k j : Nat) (s : State),
    opcField (encode (.udec w k j)) = 0x1#4 ∧
    ((¬∃ bs, BitText s.operand bs) → Answers (.udec w k j) s (IsError 1)) ∧
    ∀ bs : BitString, BitText s.operand bs →
      (64 < bs.length → Answers (.udec w k j) s (IsError 3)) ∧
      (bs.length ≤ 64 → Answers (.udec w k j) s (IsNum false (uValue bs)))

/-- Rule R105. The w digits are the sign digit, worth 2^(w-1), and the magnitude n in w - 1 digits. -/
def Obligations.SmencFollowsItsRule : Prop :=
  ∀ (w k j : Nat) (s : State),
    opcField (encode (.smenc w k j)) = 0x2#4 ∧
    (w < 1 ∨ 64 < w → Answers (.smenc w k j) s (IsError 5)) ∧
    (1 ≤ w → w ≤ 64 → (¬∃ neg n, IntText s.operand neg n) → Answers (.smenc w k j) s (IsError 1)) ∧
    ∀ (neg : Bool) (n : Nat), 1 ≤ w → w ≤ 64 → IntText s.operand neg n →
      (2 ^ (w - 1) ≤ n → Answers (.smenc w k j) s (IsError 4)) ∧
      (n < 2 ^ (w - 1) →
        Answers (.smenc w k j) s (IsBits w ((if neg = true ∧ 0 < n then 2 ^ (w - 1) else 0) + n)))

/-- Rule R107. -/
def Obligations.SmdecFollowsItsRule : Prop :=
  ∀ (w k j : Nat) (s : State),
    opcField (encode (.smdec w k j)) = 0x3#4 ∧
    ((¬∃ bs, BitText s.operand bs) → Answers (.smdec w k j) s (IsError 1)) ∧
    ∀ (b : Bool) (bs : BitString), BitText s.operand (b :: bs) →
      (64 < (b :: bs).length → Answers (.smdec w k j) s (IsError 3)) ∧
      ((b :: bs).length ≤ 64 → Answers (.smdec w k j) s (IsNum b (uValue bs)))

/-- Rule R109. The unsigned value of the w digits is n, or 2^w - 1 - n for a negative value. -/
def Obligations.OcencFollowsItsRule : Prop :=
  ∀ (w k j : Nat) (s : State),
    opcField (encode (.ocenc w k j)) = 0x4#4 ∧
    (w < 1 ∨ 64 < w → Answers (.ocenc w k j) s (IsError 5)) ∧
    (1 ≤ w → w ≤ 64 → (¬∃ neg n, IntText s.operand neg n) → Answers (.ocenc w k j) s (IsError 1)) ∧
    ∀ (neg : Bool) (n : Nat), 1 ≤ w → w ≤ 64 → IntText s.operand neg n →
      (2 ^ (w - 1) ≤ n → Answers (.ocenc w k j) s (IsError 4)) ∧
      (n < 2 ^ (w - 1) →
        Answers (.ocenc w k j) s (IsBits w (if neg = true ∧ 0 < n then 2 ^ w - 1 - n else n)))

/-- Rule R111. -/
def Obligations.OcdecFollowsItsRule : Prop :=
  ∀ (w k j : Nat) (s : State),
    opcField (encode (.ocdec w k j)) = 0x5#4 ∧
    ((¬∃ bs, BitText s.operand bs) → Answers (.ocdec w k j) s (IsError 1)) ∧
    ∀ (b : Bool) (bs : BitString), BitText s.operand (b :: bs) →
      (64 < (b :: bs).length → Answers (.ocdec w k j) s (IsError 3)) ∧
      ((b :: bs).length ≤ 64 → b = true →
        Answers (.ocdec w k j) s (IsNum true (uValue ((b :: bs).map (fun d => !d))))) ∧
      ((b :: bs).length ≤ 64 → b = false → Answers (.ocdec w k j) s (IsNum false (uValue (b :: bs))))

/-- Rule R113, the range of 90_conflicts.md C2. `v mod 2^w` is v, or v + 2^w for a negative v of the range. -/
def Obligations.TcencFollowsItsRule : Prop :=
  ∀ (w k j : Nat) (s : State),
    opcField (encode (.tcenc w k j)) = 0x6#4 ∧
    (w < 1 ∨ 64 < w → Answers (.tcenc w k j) s (IsError 5)) ∧
    (1 ≤ w → w ≤ 64 → (¬∃ neg n, IntText s.operand neg n) → Answers (.tcenc w k j) s (IsError 1)) ∧
    ∀ (neg : Bool) (n : Nat) (v : ℤ), 1 ≤ w → w ≤ 64 → IntText s.operand neg n → v = (if neg then -(n : ℤ) else n) →
      (v < -2 ^ (w - 1) ∨ 2 ^ (w - 1) - 1 < v → Answers (.tcenc w k j) s (IsError 4)) ∧
      (-2 ^ (w - 1) ≤ v → v ≤ 2 ^ (w - 1) - 1 →
        ∃ sig : Nat, (sig : ℤ) = (if v < 0 then v + 2 ^ w else v) ∧ Answers (.tcenc w k j) s (IsBits w sig))

/-- Rule R115, the reading of 90_conflicts.md C3. -/
def Obligations.TcdecFollowsItsRule : Prop :=
  ∀ (w k j : Nat) (s : State),
    opcField (encode (.tcdec w k j)) = 0x7#4 ∧
    ((¬∃ bs, BitText s.operand bs) → Answers (.tcdec w k j) s (IsError 1)) ∧
    ∀ (b : Bool) (bs : BitString) (v : ℤ), BitText s.operand (b :: bs) →
      v = (uValue (b :: bs) : ℤ) - (if b then 1 else 0) * 2 ^ (b :: bs).length →
      (64 < (b :: bs).length → Answers (.tcdec w k j) s (IsError 3)) ∧
      ((b :: bs).length ≤ 64 → Answers (.tcdec w k j) s (IsNum (decide (v < 0)) (|v| : ℤ)))

/-- Rules R106, R110 and R116: for every width from 1 to 64, which patterns decode to +0 and which to -0. Sign-magnitude and
ones'-complement have exactly two zero patterns, two's-complement exactly one. -/
def Obligations.ZeroPatternsOfEachRepresentation : Prop :=
  ∀ (w k j n : Nat) (s : State) (bs : BitString), BitText s.operand bs → bs.length = n + 1 → n + 1 ≤ 64 →
    ((Answers (.smdec w k j) s (IsNum false 0) ↔ bs = List.replicate (n + 1) false) ∧
      (Answers (.smdec w k j) s (IsNum true 0) ↔ bs = true :: List.replicate n false)) ∧
    ((Answers (.ocdec w k j) s (IsNum false 0) ↔ bs = List.replicate (n + 1) false) ∧
      (Answers (.ocdec w k j) s (IsNum true 0) ↔ bs = List.replicate (n + 1) true)) ∧
    ((Answers (.tcdec w k j) s (IsNum false 0) ↔ bs = List.replicate (n + 1) false) ∧
      ¬Answers (.tcdec w k j) s (IsNum true 0))

/-- Rule R114: for every value in range other than -2^(w-1), TCENC gives the bits of OCENC, plus 1 for a negative value. -/
def Obligations.TcencIsOcencPlusOneWhenNegative : Prop :=
  ∀ (w k j n : Nat) (neg : Bool) (s : State), 1 ≤ w → w ≤ 64 → IntText s.operand neg n → n < 2 ^ (w - 1) →
    ∃ oc tc : Nat, Answers (.ocenc w k j) s (IsBits w oc) ∧ Answers (.tcenc w k j) s (IsBits w tc) ∧
      tc = oc + (if neg = true ∧ 0 < n then 1 else 0)

/-- Rule R117: the encodable ranges. A value outside fails with WidthOverflow (UENC: NegativeValueError below 0), a value
inside succeeds with w digits. -/
def Obligations.EncodableRanges : Prop :=
  ∀ (w k j n : Nat) (neg : Bool) (v : ℤ) (s : State), 1 ≤ w → w ≤ 64 → IntText s.operand neg n →
    v = (if neg then -(n : ℤ) else n) →
    ((0 ≤ v ∧ v ≤ 2 ^ w - 1 ↔ ∃ sig, Answers (.uenc w k j) s (IsBits w sig)) ∧
      (v < 0 ↔ Answers (.uenc w k j) s (IsError 2)) ∧ (2 ^ w - 1 < v ↔ Answers (.uenc w k j) s (IsError 4))) ∧
    ((-(2 ^ (w - 1) - 1) ≤ v ∧ v ≤ 2 ^ (w - 1) - 1 ↔ ∃ sig, Answers (.smenc w k j) s (IsBits w sig)) ∧
      (v < -(2 ^ (w - 1) - 1) ∨ 2 ^ (w - 1) - 1 < v ↔ Answers (.smenc w k j) s (IsError 4))) ∧
    ((-(2 ^ (w - 1) - 1) ≤ v ∧ v ≤ 2 ^ (w - 1) - 1 ↔ ∃ sig, Answers (.ocenc w k j) s (IsBits w sig)) ∧
      (v < -(2 ^ (w - 1) - 1) ∨ 2 ^ (w - 1) - 1 < v ↔ Answers (.ocenc w k j) s (IsError 4))) ∧
    ((-2 ^ (w - 1) ≤ v ∧ v ≤ 2 ^ (w - 1) - 1 ↔ ∃ sig, Answers (.tcenc w k j) s (IsBits w sig)) ∧
      (v < -2 ^ (w - 1) ∨ 2 ^ (w - 1) - 1 < v ↔ Answers (.tcenc w k j) s (IsError 4)))

/-- Rules R104, R108, R112, R119, R146: each decoder completes with a number on every digit string of a legal length, and what
range the magnitude q lies in. -/
def Obligations.DecodersAreTotalWithinTheirRanges : Prop :=
  ∀ (w k j : Nat) (s : State) (bs : BitString), BitText s.operand bs →
    (bs.length ≤ 64 →
      (∃ q : ℚ, Answers (.udec w k j) s (IsNum false q) ∧ q ≤ 2 ^ 64 - 1) ∧
      (∃ (neg : Bool) (q : ℚ), Answers (.smdec w k j) s (IsNum neg q) ∧ q < 2 ^ 63) ∧
      (∃ (neg : Bool) (q : ℚ), Answers (.ocdec w k j) s (IsNum neg q) ∧ q < 2 ^ (bs.length - 1)) ∧
      (∃ (neg : Bool) (q : ℚ), Answers (.tcdec w k j) s (IsNum neg q) ∧ q ≤ 2 ^ (bs.length - 1))) ∧
    (1 ≤ k → 1 ≤ j → bs.length = k + j + 1 → bs.length ≤ 64 →
      ∃ (neg : Bool) (n : Nat), n < 2 ^ (k + j) ∧ Answers (.fxdec w k j) s (IsNum neg ((n : ℚ) / 2 ^ j)))

/-- Rule R118: for every width and every value in the range of rule R117, decoding the digits of an encoder's result with
the matching decoder gives the value back; `-0` comes back as +0. -/
def Obligations.IntegerCodecsRoundTrip : Prop :=
  ∀ (w k j n : Nat) (neg : Bool) (s : State), 1 ≤ w → w ≤ 64 → IntText s.operand neg n →
    ∀ enc dec : Instr,
      ((enc = .uenc w k j ∧ dec = .udec w k j ∧ ¬(neg = true ∧ 0 < n) ∧ n < 2 ^ w) ∨
        (enc = .smenc w k j ∧ dec = .smdec w k j ∧ n < 2 ^ (w - 1)) ∨
        (enc = .ocenc w k j ∧ dec = .ocdec w k j ∧ n < 2 ^ (w - 1)) ∨
        (enc = .tcenc w k j ∧ dec = .tcdec w k j ∧
          (n < 2 ^ (w - 1) ∨ (neg = true ∧ n = 2 ^ (w - 1))))) →
      ∃ r text, exec enc s = .next { s with rsp := r } ∧ render r.result = some text ∧ text.length = w ∧
        ∀ t : State, t.operand = text → Answers dec t (IsNum (decide (neg = true ∧ 0 < n)) n)

/-! ## The fixed-point codecs -/

/-- Rules R141 and R142, with the layout of rule R140: the sign digit, k integer digits, j fraction digits. -/
def Obligations.FxencFollowsItsRule : Prop :=
  ∀ (w k j : Nat) (s : State),
    opcField (encode (.fxenc w k j)) = 0x8#4 ∧
    (k < 1 ∨ j < 1 ∨ 64 < k + j + 1 → Answers (.fxenc w k j) s (IsError 5)) ∧
    (1 ≤ k → 1 ≤ j → k + j + 1 ≤ 64 → (¬∃ neg a, DecText s.operand neg a) → Answers (.fxenc w k j) s (IsError 1)) ∧
    ∀ (neg : Bool) (a : ℚ), 1 ≤ k → 1 ≤ j → k + j + 1 ≤ 64 → DecText s.operand neg a →
      ((2 : ℚ) ^ k ≤ a → Answers (.fxenc w k j) s (IsError 4)) ∧
      (a < 2 ^ k →
        Answers (.fxenc w k j) s (IsBits (k + j + 1)
          ((if neg = true ∧ 0 < a then 2 ^ (k + j) else 0) + ⌊a⌋₊ * 2 ^ j + ⌊(a - ⌊a⌋₊) * 2 ^ j⌋₊)))

/-- Rules R141 and R144. -/
def Obligations.FxdecFollowsItsRule : Prop :=
  ∀ (w k j : Nat) (s : State),
    opcField (encode (.fxdec w k j)) = 0x9#4 ∧
    (k < 1 ∨ j < 1 ∨ 64 < k + j + 1 → Answers (.fxdec w k j) s (IsError 5)) ∧
    (1 ≤ k → 1 ≤ j → k + j + 1 ≤ 64 → (¬∃ bs, BitText s.operand bs) → Answers (.fxdec w k j) s (IsError 1)) ∧
    (∀ bs : BitString, 1 ≤ k → 1 ≤ j → k + j + 1 ≤ 64 → BitText s.operand bs → bs.length ≠ k + j + 1 →
      Answers (.fxdec w k j) s (IsError 3)) ∧
    ∀ (b : Bool) (ip fb : BitString), 1 ≤ k → 1 ≤ j → k + j + 1 ≤ 64 → BitText s.operand (b :: (ip ++ fb)) →
      ip.length = k → fb.length = j →
      Answers (.fxdec w k j) s (IsNum b ((uValue ip : ℚ) + (uValue fb : ℚ) / 2 ^ j))

/-- Rule R143: the source's repeated doubling of a fraction rem / den < 1 emits the digits of bin_j(floor(rem / den * 2^j)). -/
def Obligations.RepeatedDoublingGivesTheFractionDigits : Prop :=
  ∀ (den rem j : Nat), rem < den → repeatedDoubling den j rem = bin j (rem * 2 ^ j / den)

/-- Rule R145: FXDEC of FXENC's result has the sign of the value (or is a zero with the sign tag of v < 0), its magnitude d
satisfies d <= |v| < d + 2^-j, and the round trip is exact exactly when |v| * 2^j is an integer. -/
def Obligations.FixedPointTruncationBound : Prop :=
  ∀ (w k j : Nat) (neg : Bool) (a : ℚ) (s : State), 1 ≤ k → 1 ≤ j → k + j + 1 ≤ 64 → DecText s.operand neg a → a < 2 ^ k →
    ∃ r text d, exec (.fxenc w k j) s = .next { s with rsp := r } ∧ render r.result = some text ∧
      d ≤ a ∧ a < d + 1 / 2 ^ j ∧ (d = a ↔ ∃ z : ℤ, a * 2 ^ j = z) ∧
      ∀ t : State, t.operand = text → Answers (.fxdec w k j) t (IsNum (decide (neg = true ∧ 0 < a)) d)

/-! ## The IEEE-754 codecs -/

/-- Rule R164: for a magnitude num / den > 0 the first set bit of its binary expansion and the m digits after it give the
exponent and the mantissa of rule R163, as soon as the window's digits are there. -/
def Obligations.FirstSetBitWindowGivesExponentAndMantissa : Prop :=
  ∀ m num den n : Nat, 0 < num → 0 < den → m + den.log2 + 1 ≤ n →
    ∃ e : ℤ, (2 : ℚ) ^ e ≤ (num : ℚ) / den ∧ (num : ℚ) / den < 2 ^ (e + 1) ∧ windowExponent num den n = e ∧
      windowMantissa m num den n = ⌊((num : ℚ) / den / 2 ^ e - 1) * 2 ^ m⌋₊

/-- Rule R163 with rules R166, R167, R168 for one layout and its instruction. -/
def Sys2Proof.Safety.FencRule (l : Config.Layout) (opc : BitVec 4) (mk : Nat → Nat → Nat → Instr) : Prop :=
  ∀ (w k j : Nat) (s : State),
    opcField (encode (mk w k j)) = opc ∧
    (w ≠ 1 + l.c + l.m → Answers (mk w k j) s (IsError 6)) ∧
    (w = 1 + l.c + l.m →
      ((¬(∃ neg, InfText s.operand neg) ∧ ¬(∃ neg, NanText s.operand neg) ∧ ¬(∃ neg a, DecText s.operand neg a)) →
        Answers (mk w k j) s (IsError 1)) ∧
      (∀ neg : Bool, InfText s.operand neg →
        Answers (mk w k j) s (IsBits w ((if neg then 2 ^ (l.c + l.m) else 0) + (2 ^ l.c - 1) * 2 ^ l.m))) ∧
      (∀ neg : Bool, NanText s.operand neg →
        Answers (mk w k j) s (IsBits w ((2 ^ l.c - 1) * 2 ^ l.m + 2 ^ (l.m - 1)))) ∧
      (∀ neg : Bool, DecText s.operand neg 0 →
        Answers (mk w k j) s (IsBits w (if Config.negZeroSign = true ∧ neg = true then 2 ^ (l.c + l.m) else 0))) ∧
      ∀ (neg : Bool) (a : ℚ) (e eb : ℤ) (mant : Nat), DecText s.operand neg a → 0 < a →
        (2 : ℚ) ^ e ≤ a → a < 2 ^ (e + 1) → eb = e + l.bias → mant = ⌊(a / 2 ^ e - 1) * 2 ^ l.m⌋₊ →
        (2 ^ l.c - 1 ≤ eb ∨ eb < 0 ∨ (eb = 0 ∧ mant = 0) → Answers (mk w k j) s (IsError 4)) ∧
        (¬(2 ^ l.c - 1 ≤ eb ∨ eb < 0 ∨ (eb = 0 ∧ mant = 0)) →
          Answers (mk w k j) s
            (IsBits w ((if neg then 2 ^ (l.c + l.m) else 0) + eb.toNat * 2 ^ l.m + mant))))

/-- Rule R163: F32ENC and F64ENC. -/
def Obligations.FencFollowsItsRule : Prop :=
  FencRule ⟨8, 23, 127⟩ 0xA#4 .f32enc ∧ FencRule ⟨11, 52, 1023⟩ 0xC#4 .f64enc

/-- Rule R169 for one layout and its instruction: s, e and m are the sign digit and the two fields of rule R160. -/
def Sys2Proof.Safety.FdecRule (l : Config.Layout) (opc : BitVec 4) (mk : Nat → Nat → Nat → Instr) : Prop :=
  ∀ (w k j : Nat) (s : State),
    opcField (encode (mk w k j)) = opc ∧
    ((¬∃ bs, BitText s.operand bs) → Answers (mk w k j) s (IsError 1)) ∧
    (∀ bs : BitString, BitText s.operand bs → bs.length ≠ 1 + l.c + l.m → Answers (mk w k j) s (IsError 3)) ∧
    ∀ (b : Bool) (es ms : BitString) (e m : Nat), BitText s.operand (b :: (es ++ ms)) → es.length = l.c → ms.length = l.m →
      e = uValue es → m = uValue ms →
      (e = 2 ^ l.c - 1 → m = 0 → Answers (mk w k j) s (IsInf b)) ∧
      (e = 2 ^ l.c - 1 → m ≠ 0 → Answers (mk w k j) s IsNan) ∧
      (e = 0 → m = 0 → Answers (mk w k j) s (IsNum b 0)) ∧
      (e ≠ 2 ^ l.c - 1 → ¬(e = 0 ∧ m = 0) →
        Answers (mk w k j) s (IsNum b ((2 ^ l.m + m : ℚ) * 2 ^ ((e : ℤ) - l.bias - l.m))))

/-- Rule R169, with the classification of rule R170: F32DEC and F64DEC. -/
def Obligations.FdecFollowsItsRule : Prop :=
  FdecRule ⟨8, 23, 127⟩ 0xB#4 .f32dec ∧ FdecRule ⟨11, 52, 1023⟩ 0xD#4 .f64dec

/-- Rule R165 for one layout: the finite values that overflow, and those with an all-zero exponent field. -/
def Sys2Proof.Safety.FencRange (l : Config.Layout) (mk : Nat → Nat → Nat → Instr) : Prop :=
  ∀ (k j : Nat) (neg : Bool) (a : ℚ) (s : State), DecText s.operand neg a → 0 < a →
    (Answers (mk (1 + l.c + l.m) k j) s (IsError 4) ↔
      (2 : ℚ) ^ ((2 ^ l.c - 1 : ℤ) - l.bias) ≤ a ∨ a < (2 : ℚ) ^ (-(l.bias : ℤ)) * (1 + 1 / 2 ^ l.m)) ∧
    ((2 : ℚ) ^ (-(l.bias : ℤ)) * (1 + 1 / 2 ^ l.m) ≤ a → a < (2 : ℚ) ^ (1 - (l.bias : ℤ)) →
      ∃ mant, 0 < mant ∧ mant < 2 ^ l.m ∧
        Answers (mk (1 + l.c + l.m) k j) s
          (IsBits (1 + l.c + l.m) ((if neg then 2 ^ (l.c + l.m) else 0) + mant)))

/-- Rule R165: F32ENC overflows from 2^128, F64ENC from 2^1024; both below 2^-Bias * (1 + 2^-M). -/
def Obligations.FencFiniteRange : Prop :=
  FencRange ⟨8, 23, 127⟩ .f32enc ∧ FencRange ⟨11, 52, 1023⟩ .f64enc

/-- Rule R172 for one layout: where the source's hand-off to the fixed-point decoder is defined (E < M), its value is
(2^M + m) * 2^(E - M). -/
def Sys2Proof.Safety.HandOffRule (l : Config.Layout) : Prop :=
  ∀ (b : Bool) (es ms : BitString) (e : ℤ), es.length = l.c → ms.length = l.m → e < l.m →
    ((handOffMag l (b :: (es ++ ms)) e).sig : ℚ) * 2 ^ (handOffMag l (b :: (es ++ ms)) e).exp =
      (2 ^ l.m + uValue ms : ℚ) * 2 ^ (e - l.m)

/-- Rule R172: case 4's value is what the source's hand-off computes where it is defined. -/
def Obligations.HandOffGivesTheDecodedValue : Prop :=
  HandOffRule ⟨8, 23, 127⟩ ∧ HandOffRule ⟨11, 52, 1023⟩

/-- Rules R174 and R176 for one layout: encode, then decode the digits of the result. -/
def Sys2Proof.Safety.EncodeThenDecode (l : Config.Layout) (enc dec : Nat → Nat → Nat → Instr) : Prop :=
  ∀ (w k j : Nat) (s : State) (r : Rsp),
    exec (enc (1 + l.c + l.m) k j) s = .next { s with rsp := r } → r.rspStatus = 0 →
    ∃ text, render r.result = some text ∧ ∀ t : State, t.operand = text →
      (∀ (neg : Bool) (a : ℚ) (e : ℤ), DecText s.operand neg a → (2 : ℚ) ^ e ≤ a → a < 2 ^ (e + 1) →
        ∃ d : ℚ, Answers (dec w k j) t (IsNum neg d) ∧
          d = (2 ^ l.m + ⌊(a / 2 ^ e - 1) * 2 ^ l.m⌋₊ : ℚ) * 2 ^ (e - l.m) ∧
          d ≤ a ∧ a < d + 2 ^ (e - l.m) ∧ (d = a ↔ ∃ z : ℤ, a * 2 ^ ((l.m : ℤ) - e) = z)) ∧
      (∀ neg : Bool, DecText s.operand neg 0 →
        Answers (dec w k j) t (IsNum (Config.negZeroSign && neg) 0)) ∧
      (∀ neg : Bool, InfText s.operand neg → Answers (dec w k j) t (IsInf neg)) ∧
      (∀ neg : Bool, NanText s.operand neg → Answers (dec w k j) t IsNan)

/-- Rules R174 and R176: what decoding an encoder's result gives, for finite values, zeros, infinities and NaN. -/
def Obligations.IeeeEncodeThenDecode : Prop :=
  EncodeThenDecode ⟨8, 23, 127⟩ .f32enc .f32dec ∧ EncodeThenDecode ⟨11, 52, 1023⟩ .f64enc .f64dec

/-- Rule R175 for one layout: decode a pattern, Render the result, encode the text. -/
def Sys2Proof.Safety.DecodeThenEncode (l : Config.Layout) (enc dec : Nat → Nat → Nat → Instr) : Prop :=
  ∀ (w k j : Nat) (s : State) (b : Bool) (es ms : BitString),
    BitText s.operand (b :: (es ++ ms)) → es.length = l.c → ms.length = l.m →
    ∃ r text, exec (dec w k j) s = .next { s with rsp := r } ∧ render r.result = some text ∧
      ∀ t : State, t.operand = text →
        Answers (enc (1 + l.c + l.m) k j) t (IsBits (1 + l.c + l.m)
          (if uValue es = 2 ^ l.c - 1 ∧ uValue ms ≠ 0 then (2 ^ l.c - 1) * 2 ^ l.m + 2 ^ (l.m - 1)
            else if uValue es = 0 ∧ uValue ms = 0 ∧ Config.negZeroSign = false then 0
            else uValue (b :: (es ++ ms))))

/-- Rule R175: every pattern comes back, but NaN patterns as the one of rule R168 and, without NEG_ZERO_SIGN, zeros as all
zeros. -/
def Obligations.IeeeDecodeThenEncode : Prop :=
  DecodeThenEncode ⟨8, 23, 127⟩ .f32enc .f32dec ∧ DecodeThenEncode ⟨11, 52, 1023⟩ .f64enc .f64dec

/-! ## The host's side -/

/-- Rule R89: Render of a NUM result is a decimal text with the sign tag and the exact value. -/
def Obligations.RenderedNumbersReadBackExactly : Prop :=
  ∀ (r : Rsp) (neg : Bool) (q : ℚ), IsNum neg q r → ∃ text, render r.result = some text ∧ DecText text neg q

/-- Rule R86: the assembled command word is OPC | (W << 4) | (K << 11) | (J << 18), the encoding of the instruction. -/
def Obligations.AssembledWordIsTheEncoding : Prop :=
  ∀ i : Instr, i.WellFormed → assembledWord (BitVec.ofNat 32 i.opc) i.w i.k i.j = encode i

/-- Rule R87: the assembler's defaults for an omitted w; the block itself has none and rejects W = 0. -/
def Obligations.AssemblerDefaultWidths : Prop :=
  ∀ (rsp : Rsp) (t : Text),
    assemble rsp (.op "F32ENC" none none none (.text t)) = .ok (.issue (encode (.f32enc 32 0 0)) t) ∧
    assemble rsp (.op "F64ENC" none none none (.text t)) = .ok (.issue (encode (.f64enc 64 0 0)) t) ∧
    assemble rsp (.op "UENC" none none none (.text t)) = .ok (.issue (encode (.uenc 32 0 0)) t) ∧
    assemble rsp (.op "SMENC" none none none (.text t)) = .ok (.issue (encode (.smenc 32 0 0)) t) ∧
    assemble rsp (.op "OCENC" none none none (.text t)) = .ok (.issue (encode (.ocenc 32 0 0)) t) ∧
    assemble rsp (.op "TCENC" none none none (.text t)) = .ok (.issue (encode (.tcenc 32 0 0)) t) ∧
    ∀ (k j : Nat) (s : State),
      Answers (.f32enc 0 k j) s (IsError 6) ∧ Answers (.f64enc 0 k j) s (IsError 6) ∧
      Answers (.uenc 0 k j) s (IsError 5) ∧ Answers (.smenc 0 k j) s (IsError 5) ∧
      Answers (.ocenc 0 k j) s (IsError 5) ∧ Answers (.tcenc 0 k j) s (IsError 5)
end

