-- ==== Sys2Proof/Laws/Bits.lean ====
section
/-!
SUPPORT. Bit strings: lengths, `U` of the ways the rules put strings together, and `bin` against `U` (00_scope.md rules R16,
R17); the fields of the canonical pair of a NUM result (30_encoding.md rule R75).
-/

namespace Sys2Proof.Machine

/-! ### U -/

@[simp] theorem unsigned_nil : unsigned [] = 0 := rfl
@[simp] theorem unsigned_cons (b : Bool) (bs : BitString) :
    unsigned (b :: bs) = bitValue b * 2 ^ bs.length + unsigned bs := rfl
@[simp] theorem bitValue_true : bitValue true = 1 := rfl
@[simp] theorem bitValue_false : bitValue false = 0 := rfl

theorem unsigned_append (xs ys : BitString) : unsigned (xs ++ ys) = unsigned xs * 2 ^ ys.length + unsigned ys := by
  induction xs with
  | nil => simp
  | cons b xs ih => simp [ih, pow_add]; ring

theorem unsigned_lt (bs : BitString) : unsigned bs < 2 ^ bs.length := by
  induction bs with
  | nil => simp
  | cons b bs ih => cases b <;> simp [pow_succ] <;> omega

@[simp] theorem unsigned_replicate_false (n : Nat) : unsigned (List.replicate n false) = 0 := by
  induction n with
  | zero => rfl
  | succ n ih => simp [List.replicate_succ, ih]

@[simp] theorem length_invert (bs : BitString) : (invert bs).length = bs.length := by simp [invert]

/-- Inverting every digit subtracts from the all-ones value (rule R109). -/
theorem unsigned_invert (bs : BitString) : unsigned (invert bs) + unsigned bs + 1 = 2 ^ bs.length := by
  induction bs with
  | nil => rfl
  | cons b bs ih =>
    have : invert (b :: bs) = (!b) :: invert bs := rfl
    cases b <;> simp [this, pow_succ] <;> omega

/-! ### bin -/

@[simp] theorem length_bin (n v : Nat) : (bin n v).length = n := by
  induction n with
  | zero => rfl
  | succ n ih => simp [bin, ih]

theorem unsigned_bin_mod (n v : Nat) : unsigned (bin n v) = v % 2 ^ n := by
  induction n with
  | zero => simp [bin, Nat.mod_one]
  | succ n ih =>
    simp only [bin, unsigned_cons, length_bin, ih]
    rw [Nat.mod_pow_succ, Nat.testBit_eq_decide_div_mod_eq]
    rcases Nat.mod_two_eq_zero_or_one (v / 2 ^ n) with h | h <;> (simp [h, bitValue]; try ring)

@[simp] theorem unsigned_bin {n v : Nat} (h : v < 2 ^ n) : unsigned (bin n v) = v := by
  rw [unsigned_bin_mod, Nat.mod_eq_of_lt h]

theorem bin_mod (n v : Nat) : bin n (v % 2 ^ n) = bin n v := by
  suffices h : ∀ m, m ≤ n → bin m (v % 2 ^ n) = bin m v from h n le_rfl
  intro m
  induction m with
  | zero => intro _; rfl
  | succ m ih =>
    intro hm
    have hb : (v % 2 ^ n).testBit m = v.testBit m := by
      rw [Nat.testBit_mod_two_pow]
      simp [show m < n by omega]
    simp [bin, hb, ih (by omega)]

/-- A string is `bin` of its own length and value. -/
theorem bin_unsigned (bs : BitString) : bin bs.length (unsigned bs) = bs := by
  induction bs with
  | nil => rfl
  | cons b bs ih =>
    have hlt := unsigned_lt bs
    have hb : (unsigned (b :: bs)).testBit bs.length = b := by
      rw [Nat.testBit_eq_decide_div_mod_eq]
      cases b
      · simp [Nat.div_eq_of_lt hlt]
      · simp [Nat.add_div_left _ (Nat.two_pow_pos _), Nat.div_eq_of_lt hlt]
    have hm : unsigned (b :: bs) % 2 ^ bs.length = unsigned bs := by
      rw [unsigned_cons, Nat.mul_add_mod_self_right, Nat.mod_eq_of_lt hlt]
    have : bin bs.length (unsigned (b :: bs)) = bs := by rw [← bin_mod, hm, ih]
    simp only [List.length_cons, bin, hb, this]

/-- The first digit of `bin` says whether the value reaches half the range. -/
theorem bin_eq_cons {w v : Nat} (h : 1 ≤ w) (hv : v < 2 ^ w) :
    bin w v = decide (2 ^ (w - 1) ≤ v) :: bin (w - 1) (v % 2 ^ (w - 1)) := by
  obtain ⟨m, rfl⟩ : ∃ m, w = m + 1 := ⟨w - 1, by omega⟩
  simp only [bin, Nat.add_sub_cancel, bin_mod]
  congr 1
  rw [Nat.testBit_eq_decide_div_mod_eq]
  rw [pow_succ] at hv
  by_cases hle : 2 ^ m ≤ v
  · have : v / 2 ^ m = 1 := by apply Nat.div_eq_of_lt_le <;> omega
    simp [this, hle]
  · simp [Nat.div_eq_of_lt (not_le.1 hle), hle]

/-- Two fields side by side. -/
theorem bin_add {a b x y : Nat} (hy : y < 2 ^ b) : bin (a + b) (x * 2 ^ b + y) = bin a x ++ bin b y := by
  have h1 : unsigned (bin a x ++ bin b y) = (x * 2 ^ b + y) % 2 ^ (a + b) := by
    rw [unsigned_append, unsigned_bin hy, length_bin, unsigned_bin_mod, pow_add, mul_comm (2 ^ a), Nat.mod_mul, mul_comm x,
      Nat.mul_add_mod, Nat.mod_eq_of_lt hy, Nat.mul_add_div (by positivity), Nat.div_eq_of_lt hy]
    ring_nf
  have h2 := bin_unsigned (bin a x ++ bin b y)
  rwa [h1, List.length_append, length_bin, length_bin, bin_mod] at h2

/-- `bin` cut after its first a digits. -/
theorem bin_split (a b v : Nat) : bin (a + b) v = bin a (v / 2 ^ b) ++ bin b v := by
  conv_lhs => rw [← Nat.div_add_mod' v (2 ^ b)]
  rw [bin_add (Nat.mod_lt _ (by positivity)), bin_mod]

/-- A string has the value 0 exactly when it is all zeros. -/
theorem unsigned_eq_zero {bs : BitString} : unsigned bs = 0 ↔ bs = List.replicate bs.length false := by
  induction bs with
  | nil => simp
  | cons b bs ih =>
    rw [unsigned_cons, List.length_cons, List.replicate_succ, List.cons.injEq, ← ih]
    cases b <;> simp

/-! ### Slices of a pattern -/

/-- In a string made of a sign digit and two fields, the slices of rules R140 and R160 are the fields. -/
theorem slice_first (b : Bool) (xs ys : BitString) : slice (b :: (xs ++ ys)) 1 xs.length = xs := by
  simp [slice]

theorem slice_second (b : Bool) (xs ys : BitString) :
    slice (b :: (xs ++ ys)) (xs.length + 1) (xs.length + ys.length) = ys := by
  simp [slice]

@[simp] theorem digit_zero (b : Bool) (bs : BitString) : digit (b :: bs) 0 = b := rfl

theorem slice_tail (b : Bool) (bs : BitString) : slice (b :: bs) 1 ((b :: bs).length - 1) = bs := by
  simp [slice]

/-! ### The canonical pair -/

/-- Halving keeps the value (rule R75). -/
theorem Mag.halve_value (fuel : Nat) (q : Mag) :
    ((Mag.halve fuel q).sig : ℚ) * 2 ^ (Mag.halve fuel q).exp = (q.sig : ℚ) * 2 ^ q.exp := by
  induction fuel generalizing q with
  | zero => rfl
  | succ fuel ih =>
    unfold Mag.halve
    split
    · rename_i h
      rw [ih]
      obtain ⟨c, hc⟩ := Nat.dvd_of_mod_eq_zero h
      have : q.sig / 2 = c := by omega
      simp only [this]
      rw [hc, zpow_add₀ (by norm_num)]
      push_cast
      ring
    · rfl

/-- Halving at most log2 n times makes n > 0 odd. -/
theorem Mag.halve_odd (fuel : Nat) (q : Mag) (hpos : 0 < q.sig) (h : q.sig < 2 ^ (fuel + 1)) :
    (Mag.halve fuel q).sig % 2 = 1 := by
  induction fuel generalizing q with
  | zero =>
    have : q.sig = 1 := by omega
    simp [Mag.halve, this]
  | succ fuel ih =>
    unfold Mag.halve
    split
    · exact ih _ (by simp only; omega) (by simp only; rw [pow_succ] at h; omega)
    · omega

theorem Mag.halve_bounds (fuel : Nat) (q : Mag) :
    (Mag.halve fuel q).sig ≤ q.sig ∧ q.exp ≤ (Mag.halve fuel q).exp ∧ (Mag.halve fuel q).exp ≤ q.exp + fuel := by
  induction fuel generalizing q with
  | zero => simp [Mag.halve]
  | succ fuel ih =>
    unfold Mag.halve
    split
    · obtain ⟨h1, h2, h3⟩ := ih { sig := q.sig / 2, exp := q.exp + 1 }
      simp only at h1 h2 h3
      refine ⟨by omega, by omega, ?_⟩
      push_cast
      omega
    · simp
      omega

@[simp] theorem Mag.canon_value (q : Mag) : (q.canon.sig : ℚ) * 2 ^ q.canon.exp = (q.sig : ℚ) * 2 ^ q.exp := by
  unfold Mag.canon
  split
  · simp_all
  · exact Mag.halve_value _ _

theorem Mag.canon_zero {q : Mag} (h : q.sig = 0) : q.canon = { sig := 0, exp := 0 } := by simp [Mag.canon, h]

theorem Mag.canon_odd {q : Mag} (h : q.sig ≠ 0) : q.canon.sig % 2 = 1 := by
  simp only [Mag.canon, h, if_false]
  exact Mag.halve_odd _ _ (by omega) Nat.lt_log2_self

theorem Mag.canon_sig_le (q : Mag) : q.canon.sig ≤ q.sig := by
  unfold Mag.canon
  split
  · simp
  · exact (Mag.halve_bounds _ _).1

/-- Where the canonical exponent of a non-zero magnitude lies. -/
theorem Mag.canon_exp_bounds {q : Mag} (h : q.sig ≠ 0) :
    q.exp ≤ q.canon.exp ∧ q.canon.exp ≤ q.exp + q.sig.log2 := by
  simp only [Mag.canon, h, if_false]
  exact (Mag.halve_bounds _ _).2

end Sys2Proof.Machine
end

