-- ==== Sys2Proof/Laws/Encoding.lean ====
section
/-!
SUPPORT. The fields of an encoded instruction and the operation code's range (30_encoding.md rules R61, R70).
-/

namespace Sys2Proof

theorem Instr.opc_lt (i : Instr) : i.opc < 14 := by cases i <;> simp [Instr.opc]

/-- The five fields of an encoded instruction, each at its place (rule R61). -/
theorem fields_encode (i : Instr) :
    opcField (encode i) = BitVec.ofNat 4 i.opc ∧ wField (encode i) = BitVec.ofNat 7 i.w ∧
      kField (encode i) = BitVec.ofNat 7 i.k ∧ jField (encode i) = BitVec.ofNat 7 i.j ∧
      rsvField (encode i) = 0#7 := by
  simp only [encode, opcField, wField, kField, jField, rsvField]
  generalize BitVec.ofNat 4 i.opc = o
  generalize BitVec.ofNat 7 i.w = w
  generalize BitVec.ofNat 7 i.k = k
  generalize BitVec.ofNat 7 i.j = j
  refine ⟨?_, ?_, ?_, ?_, ?_⟩ <;> ext n hn <;>
    simp <;> grind

/-- The operation of an instruction's own operation code is the instruction. -/
theorem instrOfOpcode_opc (i : Instr) : instrOfOpcode i.opc i.w i.k i.j = some i := by cases i <;> rfl

/-- A word that decodes has RSV = 0 and the operation code of its instruction, and its fields are the instruction's
(rules R61, R62). -/
theorem decode_eq_ok {cmd : CmdWord} {i : Instr} (h : decode cmd = .ok i) :
    rsvField cmd = 0#7 ∧ (opcField cmd).toNat = i.opc ∧ (wField cmd).toNat = i.w ∧ (kField cmd).toNat = i.k ∧
      (jField cmd).toNat = i.j := by
  unfold decode at h
  split at h
  · cases h
  · rename_i hr
    refine ⟨not_not.1 hr, ?_⟩
    generalize (opcField cmd).toNat = o at h ⊢
    generalize (wField cmd).toNat = w at h ⊢
    generalize (kField cmd).toNat = k at h ⊢
    generalize (jField cmd).toNat = j at h ⊢
    unfold instrOfOpcode at h
    split at h
    · rename_i x hx
      split at hx <;>
        first
          | (cases hx; cases h; exact ⟨rfl, rfl, rfl, rfl⟩)
          | cases hx
    · cases h

end Sys2Proof
end

