-- ==== Sys2Proof/Laws/Operands.lean ====
section
/-!
SUPPORT. The pieces of the operand grammars (30_encoding.md rules R81 to R84): the optional sign, the digit string and its
value, the first point.
-/

namespace Sys2Proof.Machine

open Sys2Proof.Safety

/-! ### The sign -/

theorem splitSign_cons (c : Byte) (t : Text) :
    splitSign (c :: t) = if c = chMinus then (true, t) else if c = chPlus then (false, t) else (false, c :: t) := rfl

theorem splitSign_spec (t : Text) : ∃ sg, t = sg ++ (splitSign t).2 ∧ SignText sg (splitSign t).1 := by
  cases t with
  | nil => exact ⟨[], rfl, .inl ⟨rfl, rfl⟩⟩
  | cons c t =>
    rw [splitSign_cons]
    split_ifs with h1 h2
    · exact ⟨[c], rfl, .inr (.inr ⟨by rw [h1]; rfl, rfl⟩)⟩
    · exact ⟨[c], rfl, .inr (.inl ⟨by rw [h2]; rfl, rfl⟩)⟩
    · exact ⟨[], rfl, .inl ⟨rfl, rfl⟩⟩

/-- A sign in front of a text that begins with no sign is split off. -/
theorem splitSign_append {sg body : Text} {neg : Bool} (hs : SignText sg neg)
    (hb : ∀ c ∈ body.head?, c ≠ chMinus ∧ c ≠ chPlus) : splitSign (sg ++ body) = (neg, body) := by
  rcases hs with ⟨rfl, rfl⟩ | ⟨rfl, rfl⟩ | ⟨rfl, rfl⟩
  · cases body with
    | nil => rfl
    | cons c t =>
      obtain ⟨h1, h2⟩ := hb c rfl
      simp [splitSign, h1, h2]
  · simp [splitSign, chMinus, chPlus]
  · simp [splitSign, chMinus]

/-! ### Digits -/

theorem isDigit_iff (c : Byte) : isDigit c = true ↔ 0x30 ≤ c.toNat ∧ c.toNat ≤ 0x39 := by simp [isDigit]

/-- A digit is neither a sign nor a point. -/
theorem digit_not_special {c : Byte} (h : 0x30 ≤ c.toNat ∧ c.toNat ≤ 0x39) :
    c ≠ chMinus ∧ c ≠ chPlus ∧ c ≠ chPoint := by
  refine ⟨?_, ?_, ?_⟩ <;> rintro rfl <;> simp [chMinus, chPlus, chPoint] at h

theorem ofDigits_append_digit (ds : List Nat) (d : Nat) :
    Nat.ofDigits 10 (d :: ds) = d + 10 * Nat.ofDigits 10 ds := by
  simp [Nat.ofDigits_cons]

/-- The value from left to right is the value of the reversed digit list (rule R82). -/
theorem decimalValue_eq (ds : Text) :
    decimalValue ds = Nat.ofDigits 10 (ds.reverse.map (fun c => c.toNat - 0x30)) := by
  induction ds using List.reverseRecOn with
  | nil => rfl
  | append_singleton ds c ih =>
    have : decimalValue (ds ++ [c]) = 10 * decimalValue ds + digitValue c := by simp [decimalValue]
    rw [this, ih]
    simp [Nat.ofDigits_cons, digitValue]
    ring

theorem parseDigits_eq_some (ds : Text) (n : Nat) : parseDigits ds = some n ↔ DigitsText ds n := by
  unfold parseDigits DigitsText
  rw [← decimalValue_eq]
  by_cases h0 : ds = []
  · simp [h0]
  · by_cases hall : ∀ c ∈ ds, 0x30 ≤ c.toNat ∧ c.toNat ≤ 0x39
    · have : ds.all isDigit = true := by simpa [List.all_eq_true, isDigit_iff] using hall
      simp only [List.isEmpty_iff, h0, this, Bool.not_true, Bool.or_false, if_false,
        Option.some.injEq, ne_eq, not_false_eq_true, true_and]
      exact ⟨fun h => ⟨hall, h.symm⟩, fun h => h.2.symm⟩
    · have : ds.all isDigit = false := by
        rw [Bool.eq_false_iff, Ne, List.all_eq_true]
        simpa [isDigit_iff] using hall
      simp [h0, this, hall]

/-- A digit string begins with no sign. -/
theorem digitsText_head {ds : Text} {n : Nat} (h : DigitsText ds n) :
    ∀ c ∈ ds.head?, c ≠ chMinus ∧ c ≠ chPlus := by
  intro c hc
  have := digit_not_special (h.2.1 c (List.mem_of_mem_head? hc))
  exact ⟨this.1, this.2.1⟩

/-! ### The point -/

theorem splitFirst_eq_none (sep : Byte) (t b : Text) : splitFirst sep t = (b, none) ↔ sep ∉ t ∧ b = t := by
  induction t generalizing b with
  | nil => simp [splitFirst, eq_comm]
  | cons c t ih =>
    unfold splitFirst
    split_ifs with h
    · simp [h]
    · rcases hs : splitFirst sep t with ⟨b', a'⟩
      have hne : ¬ sep = c := fun e => h e.symm
      have := ih b'
      rw [hs] at this
      simp only [Prod.mk.injEq, List.mem_cons, hne, false_or]
      constructor
      · rintro ⟨rfl, rfl⟩
        obtain ⟨h1, rfl⟩ := this.1 rfl
        exact ⟨h1, rfl⟩
      · rintro ⟨h1, rfl⟩
        have h2 := (ih t).2 ⟨h1, rfl⟩
        rw [hs] at h2
        obtain ⟨rfl, rfl⟩ := Prod.mk.inj h2
        exact ⟨rfl, rfl⟩

theorem splitFirst_eq_some (sep : Byte) (t b a : Text) :
    splitFirst sep t = (b, some a) ↔ t = b ++ sep :: a ∧ sep ∉ b := by
  induction t generalizing b a with
  | nil => simp [splitFirst]
  | cons c t ih =>
    unfold splitFirst
    split_ifs with h
    · constructor
      · intro e
        obtain ⟨rfl, e2⟩ := Prod.mk.inj e
        obtain rfl := Option.some.inj e2
        simp [h]
      · rintro ⟨h1, h2⟩
        cases b with
        | nil => simp at h1; simp [h1.2]
        | cons b0 b => simp at h1 h2; exact absurd (h.symm.trans h1.1) h2.1
    · rcases hs : splitFirst sep t with ⟨b', a'⟩
      simp only [Prod.mk.injEq]
      constructor
      · rintro ⟨rfl, rfl⟩
        obtain ⟨rfl, h2⟩ := (ih b' a).1 hs
        refine ⟨rfl, ?_⟩
        simp only [List.mem_cons, not_or]
        exact ⟨fun e => h e.symm, h2⟩
      · rintro ⟨h1, h2⟩
        cases b with
        | nil => simp at h1; exact absurd h1.1 h
        | cons b0 b =>
          simp at h1 h2
          have h3 := (ih b a).2 ⟨h1.2, h2.2⟩
          rw [hs] at h3
          obtain ⟨rfl, rfl⟩ := Prod.mk.inj h3
          exact ⟨by rw [h1.1], rfl⟩

/-! ### Bits -/

/-- The model's U is the sum of rule R16. -/
theorem unsigned_eq_uValue (bs : BitString) : unsigned bs = uValue bs := by
  induction bs with
  | nil => rfl
  | cons b bs ih =>
    rw [unsigned, ih, uValue, uValue, List.length_cons, Finset.sum_range_succ']
    simp only [bitValue, List.getD_cons_succ, List.getD_cons_zero]
    rw [add_comm]
    congr 1
    apply Finset.sum_congr rfl
    intro i hi
    congr 2
    omega

/-- Every parse of a binary operand is non-empty (rule R81). -/
theorem parseBits_ne_nil {t : Text} {bs : BitString} (h : parseBits t = some bs) : bs ≠ [] := by
  unfold parseBits at h
  simp only at h
  split at h
  · cases h
  · rename_i hc
    obtain rfl := Option.some.inj h
    intro he
    apply hc
    simp only [List.map_eq_nil_iff] at he
    rw [he]
    rfl

end Sys2Proof.Machine
end

