-- ==== Sys2Proof/Laws/PerInstr.lean ====
section
/-!
SUPPORT. The family EncodeShape, one lemma per constructor of Instr: the command word of an instruction has RSV = 0, its own
operation code, and its fields W, K, J at their places (30_encoding.md rules R61, R70).
-/

namespace Sys2Proof.Laws.EncodeShape

/-- RSV = 0, OPC is the instruction's, and W, K, J hold the instruction's fields modulo 128 (rules R61, R70). -/
def Statement (i : Instr) : Prop :=
  rsvField (encode i) = 0#7 ∧ opcField (encode i) = BitVec.ofNat 4 i.opc ∧ wField (encode i) = BitVec.ofNat 7 i.w ∧
    kField (encode i) = BitVec.ofNat 7 i.k ∧ jField (encode i) = BitVec.ofNat 7 i.j

theorem of_fields (i : Instr) : Statement i :=
  let ⟨ho, hw, hk, hj, hr⟩ := fields_encode i
  ⟨hr, ho, hw, hk, hj⟩

theorem uenc (w k j : Nat) : Statement (.uenc w k j) := of_fields _
theorem udec (w k j : Nat) : Statement (.udec w k j) := of_fields _
theorem smenc (w k j : Nat) : Statement (.smenc w k j) := of_fields _
theorem smdec (w k j : Nat) : Statement (.smdec w k j) := of_fields _
theorem ocenc (w k j : Nat) : Statement (.ocenc w k j) := of_fields _
theorem ocdec (w k j : Nat) : Statement (.ocdec w k j) := of_fields _
theorem tcenc (w k j : Nat) : Statement (.tcenc w k j) := of_fields _
theorem tcdec (w k j : Nat) : Statement (.tcdec w k j) := of_fields _
theorem fxenc (w k j : Nat) : Statement (.fxenc w k j) := of_fields _
theorem fxdec (w k j : Nat) : Statement (.fxdec w k j) := of_fields _
theorem f32enc (w k j : Nat) : Statement (.f32enc w k j) := of_fields _
theorem f32dec (w k j : Nat) : Statement (.f32dec w k j) := of_fields _
theorem f64enc (w k j : Nat) : Statement (.f64enc w k j) := of_fields _
theorem f64dec (w k j : Nat) : Statement (.f64dec w k j) := of_fields _

end Sys2Proof.Laws.EncodeShape
end

