-- ==== Sys2Proof/Laws/Render.lean ====
section
/-!
SUPPORT. What the texts of Render are (30_encoding.md rule R89): the digits of a number, the exact decimal expansion of a
dyadic magnitude, the digits of a bit string; and the result that RSP stands for.
-/

namespace Sys2Proof.Machine

open Sys2Proof.Safety

theorem digitChar_spec {d : Nat} (h : d < 10) :
    (0x30 ≤ (digitChar d).toNat ∧ (digitChar d).toNat ≤ 0x39) ∧ (digitChar d).toNat - 0x30 = d := by
  have : (digitChar d).toNat = 0x30 + d := by
    simp [digitChar]
    omega
  omega

/-- A digit behind a digit string, or behind nothing. -/
theorem digitsText_append {ds : Text} {n d : Nat} (h : ds = [] ∧ n = 0 ∨ DigitsText ds n) (hd : d < 10) :
    DigitsText (ds ++ [digitChar d]) (10 * n + d) := by
  obtain ⟨h1, h2⟩ := digitChar_spec hd
  refine ⟨by simp, ?_, ?_⟩
  · intro c hc
    rw [List.mem_append, List.mem_singleton] at hc
    rcases hc with hc | rfl
    · rcases h with ⟨rfl, _⟩ | h
      · simp at hc
      · exact h.2.1 c hc
    · exact h1
  · have : n = Nat.ofDigits 10 (ds.reverse.map (fun c => c.toNat - 0x30)) := by
      rcases h with ⟨rfl, rfl⟩ | h
      · rfl
      · exact h.2.2
    rw [this]
    simp only [List.reverse_append, List.reverse_singleton, List.map_cons, List.singleton_append, Nat.ofDigits_cons, h2]
    simp
    ring

theorem decimalTextFuel_spec (fuel n : Nat) (h : n < 2 ^ (fuel + 1)) : DigitsText (decimalTextFuel fuel n) n := by
  induction fuel generalizing n with
  | zero =>
    have := digitsText_append (ds := []) (n := 0) (d := n % 10) (.inl ⟨rfl, rfl⟩) (by omega)
    rwa [show 10 * 0 + n % 10 = n by omega] at this
  | succ f ih =>
    unfold decimalTextFuel
    split_ifs with h10
    · simpa using digitsText_append (ds := []) (n := 0) (d := n) (.inl ⟨rfl, rfl⟩) h10
    · have := digitsText_append (d := n % 10) (.inr (ih (n / 10) (by rw [pow_succ] at h; omega))) (by omega)
      rwa [show 10 * (n / 10) + n % 10 = n by omega] at this

/-- `decimalText n` is a digit string of value n. -/
theorem decimalText_spec (n : Nat) : DigitsText (decimalText n) n := decimalTextFuel_spec _ _ Nat.lt_log2_self

/-- `paddedText p n` has p digits and, unless it is empty, is a digit string of value n. -/
theorem paddedText_spec (p n : Nat) (h : n < 10 ^ p) :
    (p = 0 ∧ n = 0 ∧ paddedText p n = [] ∨ DigitsText (paddedText p n) n) ∧ (paddedText p n).length = p := by
  induction p generalizing n with
  | zero =>
    rw [pow_zero] at h
    exact ⟨.inl ⟨rfl, by omega, rfl⟩, rfl⟩
  | succ p ih =>
    obtain ⟨h1, h2⟩ := ih (n / 10) (by rw [pow_succ] at h; omega)
    unfold paddedText
    refine ⟨.inr ?_, by simp [h2]⟩
    have := digitsText_append (ds := paddedText p (n / 10)) (n := n / 10) (d := n % 10)
      (by rcases h1 with h1 | h1; exacts [.inl ⟨h1.2.2, h1.2.1⟩, .inr h1]) (by omega)
    rwa [show 10 * (n / 10) + n % 10 = n by omega] at this

theorem signText_spec (neg : Bool) : SignText (signText neg) neg := by
  cases neg
  exacts [.inl ⟨rfl, rfl⟩, .inr (.inr ⟨rfl, rfl⟩)]

/-- A sign and `renderMag q` are a decimal text of the exact magnitude. -/
theorem renderMag_spec (neg : Bool) (q : Mag) :
    DecText (signText neg ++ renderMag q) neg ((q.sig : ℚ) * 2 ^ q.exp) := by
  rw [← Mag.canon_value]
  unfold renderMag
  simp only
  split_ifs with h
  · refine ⟨signText neg, _, _, signText_spec neg, decimalText_spec _, .inl ⟨rfl, ?_⟩⟩
    obtain ⟨n, hn⟩ := Int.eq_ofNat_of_zero_le h
    rw [hn]
    simp
  · obtain ⟨p, hp, he⟩ : ∃ p : Nat, (-q.canon.exp).toNat = p ∧ q.canon.exp = -(p : ℤ) := ⟨_, rfl, by omega⟩
    rw [hp, he]
    generalize q.canon.sig = g
    have hlt : g % 2 ^ p * 5 ^ p < 10 ^ p := by
      have : 10 ^ p = 2 ^ p * 5 ^ p := by rw [← mul_pow, show 2 * 5 = 10 by rfl]
      rw [this]
      exact Nat.mul_lt_mul_of_pos_right (Nat.mod_lt _ (by positivity)) (by positivity)
    obtain ⟨h1, h2⟩ := paddedText_spec p _ hlt
    refine ⟨signText neg, _, _, signText_spec neg, decimalText_spec (g / 2 ^ p),
      .inr ⟨_, _, h1.resolve_left (by omega), by simp [chPoint], ?_⟩⟩
    rw [h2]
    have hd : (g : ℚ) = 2 ^ p * (g / 2 ^ p : ℕ) + (g % 2 ^ p : ℕ) := by exact_mod_cast (Nat.div_add_mod g (2 ^ p)).symm
    have t10 : (10 : ℚ) ^ p = 2 ^ p * 5 ^ p := by rw [← mul_pow]; norm_num
    push_cast [t10]
    rw [zpow_neg, zpow_natCast]
    generalize g % 2 ^ p = x at *
    generalize g / 2 ^ p = y at *
    rw [hd]
    field_simp

/-- The digits of a bit string are a binary operand that means the string. -/
theorem bitText_bitsText {bs : BitString} (h : bs ≠ []) : BitText (bitsText bs) bs := by
  refine ⟨h, ?_⟩
  unfold bitsText
  rw [List.filter_eq_self.2]
  · rfl
  · intro c hc
    obtain ⟨b, _, rfl⟩ := List.mem_map.1 hc
    cases b <;> decide

theorem bin_ne_nil {n : Nat} (h : 1 ≤ n) (v : Nat) : bin n v ≠ [] := by
  intro h'
  have := congrArg List.length h'
  simp at this
  omega

/-! ### The result that RSP stands for (rule R75) -/

theorem beq_one_eq {r : BitVec 1} {neg : Bool} (h : r = 1 ↔ neg = true) : (r == 1) = neg := by cases neg <;> simp_all

theorem result_of_isBits {len sig : Nat} {r : Rsp} (h : IsBits len sig r) : r.result = .bits (bin len sig) := by
  obtain ⟨_, _, ht, _, hl, hs, _⟩ := h
  simp [Rsp.result, ht, hl, hs]

theorem result_of_isNum {neg : Bool} {q : ℚ} {r : Rsp} (h : IsNum neg q r) :
    r.result = .num neg { sig := r.resSig.toNat, exp := r.resExp.toInt } := by
  obtain ⟨_, _, ht, hn, _⟩ := h
  have := beq_one_eq hn
  simp only [Rsp.result, ht, this]
  rfl

theorem result_of_isInf {neg : Bool} {r : Rsp} (h : IsInf neg r) : r.result = .inf neg := by
  obtain ⟨_, _, ht, hn, _⟩ := h
  have := beq_one_eq hn
  simp only [Rsp.result, ht, this]
  rfl

theorem result_of_isNan {r : Rsp} (h : IsNan r) : r.result = .nan := by
  obtain ⟨_, _, ht, _⟩ := h
  simp only [Rsp.result, ht]
  rfl

/-- Rendering a BITS result gives a binary operand of its own length that means the same string (rule R89). -/
theorem render_of_isBits {len sig : Nat} {r : Rsp} (hl : 1 ≤ len) (h : IsBits len sig r) :
    ∃ text, render r.result = some text ∧ text.length = len ∧ BitText text (bin len sig) :=
  ⟨bitsText (bin len sig), by rw [result_of_isBits h]; rfl, by simp [bitsText], bitText_bitsText (bin_ne_nil hl sig)⟩

end Sys2Proof.Machine
end

