-- ==== Sys2Proof/Laws/State.lean ====
section
/-!
SUPPORT. One lemma per field per update of State and RSP, each true by rfl, so that no proof unfolds a record update.
-/

namespace Sys2Proof.Machine

/-! ### finish and raise -/

@[simp] theorem State.finish_rsp (s : State) (r : Reply) : (s.finish r).rsp = Rsp.ofReply r := rfl
@[simp] theorem State.finish_pending (s : State) (r : Reply) : (s.finish r).pending = s.pending := rfl
@[simp] theorem State.finish_operand (s : State) (r : Reply) : (s.finish r).operand = s.operand := rfl
theorem State.finish_eq (s : State) (r : Reply) : s.finish r = { s with rsp := Rsp.ofReply r } := rfl
@[simp] theorem State.raise_rsp (s : State) (e : Status) : (s.raise e).rsp = Rsp.ofReply (.raise e) := rfl
@[simp] theorem State.raise_pending (s : State) (e : Status) : (s.raise e).pending = s.pending := rfl

/-! ### The host's actions -/

@[simp] theorem State.advance_rsp (s : State) : s.advance.rsp = s.rsp := rfl
@[simp] theorem State.advance_pending (s : State) : s.advance.pending = s.pending.tail := rfl
@[simp] theorem State.applyReset_rsp (s : State) : s.applyReset.rsp = Rsp.reset := rfl
@[simp] theorem State.applyReset_pending (s : State) : s.applyReset.pending = s.pending := rfl
@[simp] theorem State.applyPowerCycle_rsp (s : State) : s.applyPowerCycle.rsp = Rsp.reset := rfl
@[simp] theorem State.applyPowerCycle_pending (s : State) : s.applyPowerCycle.pending = s.pending := rfl
@[simp] theorem State.present_rsp (s : State) (a : HostAction) : (s.present a).rsp = s.rsp := rfl
@[simp] theorem State.present_pending (s : State) (a : HostAction) : (s.present a).pending = s.pending ++ [a] := rfl
@[simp] theorem State.readRsp_eq (s : State) : s.readRsp = s.rsp := rfl
@[simp] theorem State.reset_rsp : State.reset.rsp = Rsp.reset := rfl
@[simp] theorem State.reset_pending : State.reset.pending = [] := rfl
@[simp] theorem State.withFetchWord_rsp (s : State) (n w : Nat) : (s.withFetchWord n w).rsp = s.rsp := rfl
@[simp] theorem State.withFetchWord_pending (s : State) (n w : Nat) :
    (s.withFetchWord n w).pending = .issue (tableWord n w) [] :: s.pending := rfl

/-- The operand on the port is that of the request under way. -/
theorem State.operand_of_pending {s : State} {cmd : CmdWord} {operand : Text} {rest : List HostAction}
    (h : s.pending = .issue cmd operand :: rest) : s.operand = operand := by
  simp [State.operand, h]

/-! ### The fields of RSP after finish -/

@[simp] theorem Rsp.ofReply_rspValid (r : Reply) : (Rsp.ofReply r).rspValid = 1 := rfl
@[simp] theorem Rsp.ofReply_rspStatus (r : Reply) : (Rsp.ofReply r).rspStatus = r.status.code := rfl
@[simp] theorem Rsp.ofReply_resTag (r : Reply) : (Rsp.ofReply r).resTag = r.result.tag := rfl
@[simp] theorem Rsp.ofReply_resNeg (r : Reply) : (Rsp.ofReply r).resNeg = r.result.neg := rfl
@[simp] theorem Rsp.ofReply_resLen (r : Reply) : (Rsp.ofReply r).resLen = r.result.len := rfl
@[simp] theorem Rsp.ofReply_resSig (r : Reply) : (Rsp.ofReply r).resSig = r.result.sig := rfl
@[simp] theorem Rsp.ofReply_resExp (r : Reply) : (Rsp.ofReply r).resExp = r.result.exp := rfl

end Sys2Proof.Machine
end

