-- ==== Sys2Proof/Laws/Step.lean ====
section
/-!
SUPPORT. What exec and step can do, said once: exec finishes with the reply of the instruction's operation, and a step is one
of five cases.
-/

namespace Sys2Proof.Machine

/-- The reply of an instruction to an operand: the pair (status, result) of 30_encoding.md rule R62. -/
def replyOf (i : Instr) (operand : Text) : Reply :=
  match i with
  | .uenc w _ _ => uenc w operand
  | .udec _ _ _ => udec operand
  | .smenc w _ _ => smenc w operand
  | .smdec _ _ _ => smdec operand
  | .ocenc w _ _ => ocenc w operand
  | .ocdec _ _ _ => ocdec operand
  | .tcenc w _ _ => tcenc w operand
  | .tcdec _ _ _ => tcdec operand
  | .fxenc _ k j => fxenc k j operand
  | .fxdec _ k j => fxdec k j operand
  | .f32enc w _ _ => fenc Config.f32 Config.negZeroSign w operand
  | .f32dec _ _ _ => fdec Config.f32 operand
  | .f64enc w _ _ => fenc Config.f64 Config.negZeroSign w operand
  | .f64dec _ _ _ => fdec Config.f64 operand

/-- exec is `finish` with the instruction's reply to the operand on the port. -/
theorem exec_eq_finish (i : Instr) (s : State) : exec i s = .next (s.finish (replyOf i s.operand)) := by
  cases i <;> rfl

/-- What exec can answer: a next state only, with RSP written and nothing else. -/
theorem exec_next {i : Instr} {s t : State} (h : exec i s = .next t) : t = s.finish (replyOf i s.operand) := by
  rw [exec_eq_finish] at h
  exact (Host.Outcome.next.inj h).symm

/-- The response to a command word and an operand: rule R62 with its illegal case (30_encoding.md). -/
def responseOf (cmd : CmdWord) (operand : Text) : Reply :=
  match decode cmd with
  | .error _ => .raise .illegalOperation
  | .ok i => replyOf i operand

/-- An issue finishes with the response to its command word and lets the host's list move on. -/
theorem issue_eq (cmd : CmdWord) (s : State) :
    issue cmd s = .next (s.finish (responseOf cmd s.operand)).advance := by
  unfold issue responseOf
  cases decode cmd with
  | error e => rfl
  | ok i => simp only [exec_eq_finish]

theorem step_of_pending_nil {s : State} (h : s.pending = []) : step s = .next s := by
  simp [step, State.nextAction, h]

theorem step_of_reset {s : State} {rest : List HostAction} (h : s.pending = .reset :: rest) :
    step s = .next { rsp := Rsp.reset, pending := rest } := by
  simp [step, perform, State.nextAction, h, State.applyReset, State.advance]

theorem step_of_powerCycle {s : State} {rest : List HostAction} (h : s.pending = .powerCycle :: rest) :
    step s = .next { rsp := Rsp.reset, pending := rest } := by
  simp [step, perform, State.nextAction, h, State.applyPowerCycle, State.advance]

theorem step_of_issue {s : State} {cmd : CmdWord} {operand : Text} {rest : List HostAction}
    (h : s.pending = .issue cmd operand :: rest) (hfit : operand.length ≤ Config.operandCapacity) :
    step s = .next { rsp := Rsp.ofReply (responseOf cmd operand), pending := rest } := by
  simp [step, perform, State.nextAction, h, operandFits, hfit, issue_eq, State.operand_of_pending h, State.advance, State.finish]

theorem step_of_overlong {s : State} {cmd : CmdWord} {operand : Text} {rest : List HostAction}
    (h : s.pending = .issue cmd operand :: rest) (hlong : Config.operandCapacity < operand.length) :
    step s = .refused .operandTooLong := by
  have : ¬ operand.length ≤ Config.operandCapacity := by omega
  simp [step, perform, State.nextAction, h, operandFits, this]

/-- What a step that answers a next state can do. -/
theorem step_cases {s t : State} (h : step s = .next t) :
    (s.pending = [] ∧ t = s) ∨
    (∃ a rest, s.pending = a :: rest ∧ (a = .reset ∨ a = .powerCycle) ∧ t = { rsp := Rsp.reset, pending := rest }) ∨
    (∃ cmd operand rest, s.pending = .issue cmd operand :: rest ∧ operand.length ≤ Config.operandCapacity ∧
      t = { rsp := Rsp.ofReply (responseOf cmd operand), pending := rest }) := by
  rcases hp : s.pending with _ | ⟨a, rest⟩
  · rw [step_of_pending_nil hp] at h
    exact .inl ⟨rfl, (Host.Outcome.next.inj h).symm⟩
  · cases a with
    | reset =>
      rw [step_of_reset hp] at h
      exact .inr (.inl ⟨_, _, rfl, .inl rfl, (Host.Outcome.next.inj h).symm⟩)
    | powerCycle =>
      rw [step_of_powerCycle hp] at h
      exact .inr (.inl ⟨_, _, rfl, .inr rfl, (Host.Outcome.next.inj h).symm⟩)
    | issue cmd operand =>
      by_cases hfit : operand.length ≤ Config.operandCapacity
      · rw [step_of_issue hp hfit] at h
        exact .inr (.inr ⟨_, _, _, rfl, hfit, (Host.Outcome.next.inj h).symm⟩)
      · rw [step_of_overlong hp (by omega)] at h
        cases h

/-! ### Runs -/

@[simp] theorem core_run_zero (s : State) : Host.Core.run core 0 s = .next s := rfl

theorem core_run_succ (n : Nat) (s : State) :
    Host.Core.run core (n + 1) s =
      match step s with
      | .next t => Host.Core.run core n t
      | .fault r => .fault r
      | .refused r => .refused r := by
  cases h : step s <;> simp [Host.Core.run, core, h]

end Sys2Proof.Machine
end

