-- ==== Sys2Proof/Laws/Reply.lean ====
section
/-!
SUPPORT. What each operation can reply, said once: an error without a result, or OK with a result whose fields fit RSP
(10_state.md rule R22, 30_encoding.md rules R71, R72).
-/

namespace Sys2Proof.Machine

open Sys2Proof.Safety

/-- A result that OK may come with: BITS of 1 to 64 digits, NUM within the bounds of rule R72, INF, NAN. -/
def ResultFits : Result → Prop
  | .none => False
  | .bits bs => 1 ≤ bs.length ∧ bs.length ≤ 64
  | .num _ q => q.sig < 2 ^ 64 ∧ -1075 ≤ q.exp ∧ q.exp + q.sig.log2 ≤ 1023 ∧ q.exp ≤ 1023
  | .inf _ => True
  | .nan => True

/-- An error without a result, or OK with a result that fits. -/
def ReplyFits (r : Reply) : Prop :=
  (r.status ≠ .ok ∧ r.result = .none) ∨ (r.status = .ok ∧ ResultFits r.result)

theorem replyFits_raise {e : Status} (h : e ≠ .ok) : ReplyFits (.raise e) := .inl ⟨h, rfl⟩
theorem replyFits_done {r : Result} (h : ResultFits r) : ReplyFits (.done r) := .inr ⟨rfl, h⟩

/-- An integer below 2^64 is a NUM that fits. -/
theorem resultFits_int {n : Nat} (neg : Bool) (h : n < 2 ^ 64) : ResultFits (.num neg { sig := n, exp := 0 }) := by
  refine ⟨h, by simp, ?_, by simp⟩
  have : n.log2 < 64 := by
    by_cases h0 : n = 0
    · subst h0; decide
    · exact (Nat.log2_lt h0).2 h
  simp only
  omega

theorem unsigned_lt_64 {bs : BitString} (h : bs.length ≤ 64) : unsigned bs < 2 ^ 64 :=
  lt_of_lt_of_le (unsigned_lt bs) (Nat.pow_le_pow_right (by norm_num) h)

/-! ### The integer codecs -/

theorem uenc_fits (w : Nat) (t : Text) : ReplyFits (uenc w t) := by
  unfold uenc
  split_ifs with hw
  · exact replyFits_raise (by decide)
  · cases parseInt t with
    | none => exact replyFits_raise (by decide)
    | some p =>
      simp only
      split_ifs
      · exact replyFits_raise (by decide)
      · exact replyFits_raise (by decide)
      · refine replyFits_done ?_
        simp only [ResultFits, length_bin]
        simp [Config.maxBits] at hw
        omega

theorem udec_fits (t : Text) : ReplyFits (udec t) := by
  unfold udec
  cases parseBits t with
  | none => exact replyFits_raise (by decide)
  | some bs =>
    simp only
    split_ifs with h
    · exact replyFits_raise (by decide)
    · exact replyFits_done (resultFits_int _ (unsigned_lt_64 (by simpa [Config.maxBits] using h)))

theorem smenc_fits (w : Nat) (t : Text) : ReplyFits (smenc w t) := by
  unfold smenc
  split_ifs with hw
  · exact replyFits_raise (by decide)
  · cases parseInt t with
    | none => exact replyFits_raise (by decide)
    | some p =>
      simp only
      split_ifs
      · exact replyFits_raise (by decide)
      · refine replyFits_done ?_
        simp only [ResultFits, List.length_cons, length_bin]
        simp [Config.maxBits] at hw
        omega

theorem smdec_fits (t : Text) : ReplyFits (smdec t) := by
  unfold smdec
  cases parseBits t with
  | none => exact replyFits_raise (by decide)
  | some bs =>
    simp only
    split_ifs with h
    · exact replyFits_raise (by decide)
    · refine replyFits_done (resultFits_int _ (unsigned_lt_64 ?_))
      simp [slice, Config.maxBits] at *
      omega

theorem ocenc_fits (w : Nat) (t : Text) : ReplyFits (ocenc w t) := by
  unfold ocenc
  split_ifs with hw
  · exact replyFits_raise (by decide)
  · cases parseInt t with
    | none => exact replyFits_raise (by decide)
    | some p =>
      simp only
      simp [Config.maxBits] at hw
      split_ifs
      · exact replyFits_raise (by decide)
      · refine replyFits_done ?_
        simp only [ResultFits, List.length_cons, length_bin, length_invert]
        omega
      · refine replyFits_done ?_
        simp only [ResultFits, List.length_cons, length_bin]
        omega

theorem ocdec_fits (t : Text) : ReplyFits (ocdec t) := by
  unfold ocdec
  cases parseBits t with
  | none => exact replyFits_raise (by decide)
  | some bs =>
    simp only
    split_ifs with h
    · exact replyFits_raise (by decide)
    · exact replyFits_done (resultFits_int _ (unsigned_lt_64 (by simpa [Config.maxBits] using h)))
    · exact replyFits_done (resultFits_int _ (unsigned_lt_64 (by simpa [Config.maxBits] using h)))

theorem tcenc_fits (w : Nat) (t : Text) : ReplyFits (tcenc w t) := by
  unfold tcenc
  split_ifs with hw
  · exact replyFits_raise (by decide)
  · cases parseInt t with
    | none => exact replyFits_raise (by decide)
    | some p =>
      simp only
      split_ifs
      · exact replyFits_raise (by decide)
      · refine replyFits_done ?_
        simp only [ResultFits, length_bin]
        simp [Config.maxBits] at hw
        omega

/-- The value TCDEC reads is at most 2^63 in magnitude, and below 2^(w-1) when it is not negative (rule R115). -/
theorem twos_natAbs_lt {b : Bool} {bs : BitString} (h : (b :: bs).length ≤ 64) :
    ((unsigned (b :: bs) : Int) - bitValue b * 2 ^ (b :: bs).length).natAbs < 2 ^ 64 := by
  have h1 := unsigned_lt bs
  have h2 : 2 ^ (bs.length + 1) ≤ 2 ^ 64 := Nat.pow_le_pow_right (by norm_num) (by simpa using h)
  have h3 : 2 ^ (bs.length + 1) = 2 * 2 ^ bs.length := by rw [pow_succ]; ring
  have h4 : (2 : Int) ^ (bs.length + 1) = ((2 ^ (bs.length + 1) : Nat) : Int) := by push_cast; rfl
  cases b <;> simp only [unsigned_cons, bitValue_true, bitValue_false, List.length_cons, h4] <;> omega

theorem tcdec_fits (t : Text) : ReplyFits (tcdec t) := by
  unfold tcdec
  cases hp : parseBits t with
  | none => exact replyFits_raise (by decide)
  | some bs =>
    simp only
    split_ifs with h
    · exact replyFits_raise (by decide)
    · obtain ⟨b, bs, rfl⟩ := List.exists_cons_of_ne_nil (parseBits_ne_nil hp)
      refine replyFits_done (resultFits_int _ ?_)
      rw [digit_zero]
      exact twos_natAbs_lt (by simpa [Config.maxBits] using h)

/-! ### The fixed-point codecs -/

theorem badFixedPoint_iff (k j : Nat) : badFixedPoint k j = true ↔ k < 1 ∨ j < 1 ∨ 64 < k + j + 1 := by
  simp [badFixedPoint, Config.maxBits, or_assoc]

theorem fxenc_fits (k j : Nat) (t : Text) : ReplyFits (fxenc k j t) := by
  unfold fxenc
  split_ifs with hw
  · exact replyFits_raise (by decide)
  · cases parseDec t with
    | none => exact replyFits_raise (by decide)
    | some a =>
      simp only
      split_ifs
      · exact replyFits_raise (by decide)
      · refine replyFits_done ?_
        rw [badFixedPoint_iff] at hw
        simp only [ResultFits, List.length_cons, List.length_append, length_bin]
        omega

/-- The magnitude read from a fixed-point string is below 2^(k+j) in units of 2^-j (rule R146). -/
theorem fixedPointMag_sig_lt (k j : Nat) (bs : BitString) : (fixedPointMag k j bs).sig < 2 ^ (k + j) := by
  have hl : ∀ a b, unsigned (slice bs a b) < 2 ^ (b + 1 - a) := fun a b =>
    lt_of_lt_of_le (unsigned_lt _) (Nat.pow_le_pow_right (by norm_num) (by simp [slice]))
  have h1 := hl 1 k
  have h2 := hl (k + 1) (k + j)
  have e1 : k + 1 - 1 = k := by omega
  have e2 : k + j + 1 - (k + 1) = j := by omega
  rw [e1] at h1
  rw [e2] at h2
  simp only [fixedPointMag, pow_add]
  calc unsigned (slice bs 1 k) * 2 ^ j + unsigned (slice bs (k + 1) (k + j))
      < unsigned (slice bs 1 k) * 2 ^ j + 2 ^ j := by omega
    _ = (unsigned (slice bs 1 k) + 1) * 2 ^ j := by ring
    _ ≤ 2 ^ k * 2 ^ j := Nat.mul_le_mul_right _ h1

theorem fxdec_fits (k j : Nat) (t : Text) : ReplyFits (fxdec k j t) := by
  unfold fxdec
  split_ifs with hw
  · exact replyFits_raise (by decide)
  · cases parseBits t with
    | none => exact replyFits_raise (by decide)
    | some bs =>
      simp only
      split_ifs
      · exact replyFits_raise (by decide)
      · refine replyFits_done ?_
        rw [badFixedPoint_iff] at hw
        have h := fixedPointMag_sig_lt k j bs
        have h64 : (fixedPointMag k j bs).sig < 2 ^ 64 :=
          lt_of_lt_of_le h (Nat.pow_le_pow_right (by norm_num) (by omega))
        have he : (fixedPointMag k j bs).exp = -(j : Int) := rfl
        have hlog : (fixedPointMag k j bs).sig.log2 < 64 := by
          by_cases h0 : (fixedPointMag k j bs).sig = 0
          · rw [h0]; decide
          · exact (Nat.log2_lt h0).2 h64
        refine ⟨h64, ?_, ?_, ?_⟩ <;> rw [he] <;> omega

/-! ### The IEEE-754 codecs -/

/-- A layout the block has (00_scope.md rule R14). -/
def IsLayout (l : Config.Layout) : Prop := l = Config.f32 ∨ l = Config.f64

theorem fenc_fits {l : Config.Layout} (hl : IsLayout l) (z : Bool) (w : Nat) (t : Text) : ReplyFits (fenc l z w t) := by
  have hN : 1 ≤ l.width ∧ l.width ≤ 64 ∧ l.width = l.c + l.m + 1 := by rcases hl with rfl | rfl <;> decide
  unfold fenc
  split_ifs with hw
  · exact replyFits_raise (by decide)
  · cases parseFloat t with
    | none => exact replyFits_raise (by decide)
    | some x =>
      cases x with
      | infv neg =>
        refine replyFits_done ?_
        simp only [ResultFits, infPattern, List.length_cons, List.length_append, length_bin]
        omega
      | nanv neg =>
        refine replyFits_done ?_
        simp only [ResultFits, nanPattern, List.length_cons, List.length_append, length_bin]
        omega
      | fin a =>
        simp only
        split_ifs
        · refine replyFits_done ?_
          simp only [ResultFits, zeroPattern, List.length_cons, length_bin]
          omega
        · unfold fencFinite
          simp only
          split_ifs
          · exact replyFits_raise (by decide)
          · refine replyFits_done ?_
            simp only [ResultFits, List.length_cons, List.length_append, length_bin]
            omega

theorem classify_fits {l : Config.Layout} (hl : IsLayout l) (bs : BitString) : ResultFits (classify l bs) := by
  have hf : ∀ a b, unsigned (slice bs a b) < 2 ^ (b + 1 - a) := fun a b =>
    lt_of_lt_of_le (unsigned_lt _) (Nat.pow_le_pow_right (by norm_num) (by simp [slice]))
  have he := hf 1 l.c
  have hm := hf (l.c + 1) (l.c + l.m)
  unfold classify exponentField mantissaField
  simp only
  generalize unsigned (slice bs 1 l.c) = e at *
  generalize unsigned (slice bs (l.c + 1) (l.c + l.m)) = m at *
  split_ifs with h1 h2 h3
  · trivial
  · trivial
  · simp [ResultFits]
  · have hlog : (2 ^ l.m + m).log2 < l.m + 1 := by
      have : 2 ^ l.m + m ≠ 0 := by positivity
      rw [Nat.log2_lt this, pow_succ]
      have : l.c + l.m + 1 - (l.c + 1) = l.m := by omega
      rw [this] at hm
      omega
    rcases hl with rfl | rfl <;>
      simp [ResultFits, Config.f32, Config.f64, Config.Layout.emax] at * <;> omega

theorem fdec_fits {l : Config.Layout} (hl : IsLayout l) (t : Text) : ReplyFits (fdec l t) := by
  unfold fdec
  cases parseBits t with
  | none => exact replyFits_raise (by decide)
  | some bs =>
    simp only
    split_ifs
    · exact replyFits_raise (by decide)
    · exact replyFits_done (classify_fits hl bs)

/-! ### All instructions -/

/-- Whatever the instruction and the operand, the reply fits. -/
theorem replyOf_fits (i : Instr) (t : Text) : ReplyFits (replyOf i t) := by
  cases i with
  | uenc w k j => exact uenc_fits w t
  | udec w k j => exact udec_fits t
  | smenc w k j => exact smenc_fits w t
  | smdec w k j => exact smdec_fits t
  | ocenc w k j => exact ocenc_fits w t
  | ocdec w k j => exact ocdec_fits t
  | tcenc w k j => exact tcenc_fits w t
  | tcdec w k j => exact tcdec_fits t
  | fxenc w k j => exact fxenc_fits k j t
  | fxdec w k j => exact fxdec_fits k j t
  | f32enc w k j => exact fenc_fits (.inl rfl) _ w t
  | f32dec w k j => exact fdec_fits (.inl rfl) t
  | f64enc w k j => exact fenc_fits (.inr rfl) _ w t
  | f64dec w k j => exact fdec_fits (.inr rfl) t

/-- So does the response to any command word. -/
theorem responseOf_fits (cmd : CmdWord) (t : Text) : ReplyFits (responseOf cmd t) := by
  unfold responseOf
  cases decode cmd with
  | error e => exact replyFits_raise (by decide)
  | ok i => exact replyOf_fits i t

/-- Only OK has the code 0 (30_encoding.md rule R74). -/
theorem Status.code_eq_zero (e : Status) : e.code = 0 ↔ e = .ok := by cases e <;> decide

/-! ### From a reply to what RSP holds -/

/-- To answer with a property is to have it in the RSP of the reply. -/
theorem answers_iff (i : Instr) (s : State) (P : Rsp → Prop) :
    Answers i s P ↔ P (Rsp.ofReply (replyOf i s.operand)) := by
  unfold Answers
  rw [exec_eq_finish, State.finish_eq]
  constructor
  · rintro ⟨r, h, hp⟩
    have := congrArg State.rsp (Host.Outcome.next.inj h)
    simp only at this
    rwa [this]
  · exact fun hp => ⟨_, rfl, hp⟩

theorem isError_raise (e : Status) : IsError e.code.toNat (Rsp.ofReply (.raise e)) :=
  ⟨rfl, rfl, rfl, rfl, rfl, rfl, rfl⟩

theorem isBits_done {bs : BitString} (h : bs.length ≤ 64) :
    IsBits bs.length (unsigned bs) (Rsp.ofReply (.done (.bits bs))) := by
  refine ⟨rfl, rfl, rfl, rfl, ?_, ?_, rfl⟩
  · simp only [Rsp.ofReply_resLen, Reply.done, Result.len, BitVec.toNat_ofNat]
    omega
  · simp only [Rsp.ofReply_resSig, Reply.done, Result.sig, BitVec.toNat_ofNat]
    exact Nat.mod_eq_of_lt (unsigned_lt_64 h)

theorem flagBit_eq_one (b : Bool) : flagBit b = 1 ↔ b = true := by cases b <;> decide

theorem isNum_done {neg : Bool} {q : Mag} (h : ResultFits (.num neg q)) :
    IsNum neg ((q.sig : ℚ) * 2 ^ q.exp) (Rsp.ofReply (.done (.num neg q))) := by
  obtain ⟨h1, h2, h3, -⟩ := h
  have hlt : q.canon.sig < 2 ^ 64 := lt_of_le_of_lt (Mag.canon_sig_le q) h1
  have hsig : (BitVec.ofNat 64 q.canon.sig).toNat = q.canon.sig := by
    rw [BitVec.toNat_ofNat, Nat.mod_eq_of_lt hlt]
  have hexp : (BitVec.ofInt 16 q.canon.exp).toInt = q.canon.exp := by
    rw [BitVec.toInt_ofInt]
    by_cases h0 : q.sig = 0
    · simp [Mag.canon_zero h0]
    · obtain ⟨e1, e2⟩ := Mag.canon_exp_bounds h0
      apply Int.bmod_eq_of_le <;> omega
  have hzero : (q.sig : ℚ) * 2 ^ q.exp = 0 ↔ q.sig = 0 := by
    rw [mul_eq_zero, or_iff_left (by positivity)]
    exact Nat.cast_eq_zero
  refine ⟨rfl, rfl, rfl, flagBit_eq_one neg, rfl, ?_, ?_, ?_⟩
  · simp only [Rsp.ofReply_resSig, Rsp.ofReply_resExp, Reply.done, Result.sig, Result.exp, hsig, hexp, Mag.canon_value]
  · intro h0
    simp [Reply.done, Result.sig, Result.exp, Mag.canon_zero (hzero.1 h0)]
  · intro h0
    simp only [Rsp.ofReply_resSig, Reply.done, Result.sig, hsig]
    exact Mag.canon_odd fun h => h0 (hzero.2 h)

theorem isInf_done (neg : Bool) : IsInf neg (Rsp.ofReply (.done (.inf neg))) :=
  ⟨rfl, rfl, rfl, flagBit_eq_one neg, rfl, rfl, rfl⟩

theorem isNan_done : IsNan (Rsp.ofReply (.done .nan)) := ⟨rfl, rfl, rfl, rfl, rfl, rfl, rfl⟩

end Sys2Proof.Machine
end

