-- ==== Sys2Proof/Laws/Rounding.lean ====
section
/-!
SUPPORT. The exponent and the mantissa of the IEEE-754 encoders as exact rationals (42_ieee754.md rules R163, R164), and a
pattern of a layout as one number (rule R160).
-/

namespace Sys2Proof.Machine

theorem floor_natCast_div (x y : Nat) : ⌊(x : ℚ) / (y : ℚ)⌋₊ = x / y := Nat.floor_div_eq_div x y

/-- The numerator and denominator that `geTwoPow` and `mantissaOf` compute with. -/
theorem scaled_eq (num den : Nat) (e : ℤ) :
    ((num * 2 ^ (-e).toNat : ℕ) : ℚ) / ((den * 2 ^ e.toNat : ℕ) : ℚ) = (num : ℚ) / den / 2 ^ e := by
  rcases le_total 0 e with h | h
  · obtain ⟨n, rfl⟩ := Int.eq_ofNat_of_zero_le h
    have : (-(n : ℤ)).toNat = 0 := by omega
    rw [this]
    simp [div_div]
  · obtain ⟨n, hn⟩ := Int.eq_ofNat_of_zero_le (by omega : 0 ≤ -e)
    have : e = -(n : ℤ) := by omega
    subst this
    have : (-(n : ℤ)).toNat = 0 := by omega
    rw [this]
    simp
    ring

theorem geTwoPow_iff {num den : Nat} (hd : 0 < den) (e : ℤ) :
    geTwoPow num den e = true ↔ (2 : ℚ) ^ e ≤ (num : ℚ) / den := by
  have h := scaled_eq num den e
  have hdd : (0 : ℚ) < ((den * 2 ^ e.toNat : ℕ) : ℚ) := by positivity
  have hp : (0 : ℚ) < 2 ^ e := by positivity
  have key : (2 : ℚ) ^ e ≤ (num : ℚ) / den ↔ (1 : ℚ) ≤ (num : ℚ) / den / 2 ^ e := by rw [le_div_iff₀ hp, one_mul]
  unfold geTwoPow
  rw [decide_eq_true_iff, key, ← h, le_div_iff₀ hdd, one_mul]
  exact_mod_cast Iff.rfl

/-- A number's binary logarithm as bounds in ℚ. -/
theorem log2_bounds {n : Nat} (h : 0 < n) : (2 : ℚ) ^ (n.log2 : ℤ) ≤ n ∧ (n : ℚ) < 2 ^ ((n.log2 : ℤ) + 1) := by
  have h1 : 2 ^ n.log2 ≤ n := Nat.log2_self_le (by omega)
  have h2 : n < 2 ^ (n.log2 + 1) := Nat.lt_log2_self
  constructor
  · rw [zpow_natCast]
    exact_mod_cast h1
  · rw [zpow_add₀ (by norm_num), zpow_natCast, zpow_one, ← pow_succ]
    exact_mod_cast h2

/-- `exponentOf` is the integer E of rule R163. -/
theorem exponentOf_spec {num den : Nat} (hn : 0 < num) (hd : 0 < den) :
    (2 : ℚ) ^ exponentOf num den ≤ (num : ℚ) / den ∧ (num : ℚ) / den < 2 ^ (exponentOf num den + 1) := by
  obtain ⟨a1, a2⟩ := log2_bounds hn
  obtain ⟨b1, b2⟩ := log2_bounds hd
  have hdq : (0 : ℚ) < den := by exact_mod_cast hd
  have up : (num : ℚ) / den < 2 ^ ((num.log2 : ℤ) - den.log2 + 1) := by
    rw [div_lt_iff₀ hdq]
    calc (num : ℚ) < (2 : ℚ) ^ ((num.log2 : ℤ) + 1) := a2
      _ = 2 ^ ((num.log2 : ℤ) - den.log2 + 1) * 2 ^ (den.log2 : ℤ) := by
        rw [← zpow_add₀ (by norm_num)]; congr 1; ring
      _ ≤ _ := mul_le_mul_of_nonneg_left b1 (by positivity)
  have lo : (2 : ℚ) ^ ((num.log2 : ℤ) - den.log2 - 1) ≤ (num : ℚ) / den := by
    rw [le_div_iff₀ hdq]
    calc (2 : ℚ) ^ ((num.log2 : ℤ) - den.log2 - 1) * den
        ≤ (2 : ℚ) ^ ((num.log2 : ℤ) - den.log2 - 1) * 2 ^ ((den.log2 : ℤ) + 1) :=
          mul_le_mul_of_nonneg_left b2.le (by positivity)
      _ = 2 ^ (num.log2 : ℤ) := by rw [← zpow_add₀ (by norm_num)]; congr 1; ring
      _ ≤ _ := a1
  unfold exponentOf
  simp only
  split_ifs with h
  · exact ⟨(geTwoPow_iff hd _).1 h, up⟩
  · rw [geTwoPow_iff hd, not_le] at h
    exact ⟨lo, by simpa using h⟩

/-- The integer E of rule R163 is unique. -/
theorem exponent_unique {a : ℚ} {e e' : ℤ} (h1 : (2 : ℚ) ^ e ≤ a) (h2 : a < 2 ^ (e + 1)) (h3 : (2 : ℚ) ^ e' ≤ a)
    (h4 : a < 2 ^ (e' + 1)) : e = e' := by
  have x := (zpow_lt_zpow_iff_right₀ (by norm_num : (1 : ℚ) < 2)).1 (lt_of_le_of_lt h1 h4)
  have y := (zpow_lt_zpow_iff_right₀ (by norm_num : (1 : ℚ) < 2)).1 (lt_of_le_of_lt h3 h2)
  omega

/-- `mantissaOf` is `floor((a / 2^E - 1) * 2^M)` (rule R163). -/
theorem mantissaOf_eq {m num den : Nat} (hd : 0 < den) {e : ℤ} (he : (2 : ℚ) ^ e ≤ (num : ℚ) / den) :
    mantissaOf m num den e = ⌊((num : ℚ) / den / 2 ^ e - 1) * 2 ^ m⌋₊ := by
  have h := scaled_eq num den e
  have hdd : 0 < den * 2 ^ e.toNat := by positivity
  have hle : den * 2 ^ e.toNat ≤ num * 2 ^ (-e).toNat := by simpa [geTwoPow] using (geTwoPow_iff hd e).2 he
  unfold mantissaOf
  simp only
  rw [← h]
  generalize num * 2 ^ (-e).toNat = n at *
  generalize den * 2 ^ e.toNat = d at *
  rw [← floor_natCast_div]
  congr 1
  have hdq : (d : ℚ) ≠ 0 := by positivity
  push_cast [Nat.cast_sub hle]
  field_simp

/-- The mantissa fits its field: `0 <= mant < 2^M` (rule R163). -/
theorem mantissa_lt {a : ℚ} {e : ℤ} {m : Nat} (h1 : (2 : ℚ) ^ e ≤ a) (h2 : a < 2 ^ (e + 1)) :
    ⌊(a / 2 ^ e - 1) * 2 ^ m⌋₊ < 2 ^ m := by
  have hp : (0 : ℚ) < 2 ^ e := by positivity
  have hm : (0 : ℚ) < 2 ^ m := by positivity
  have x : 1 ≤ a / 2 ^ e := by rwa [le_div_iff₀ hp, one_mul]
  have y : a / 2 ^ e < 2 := by
    rw [div_lt_iff₀ hp]
    rw [zpow_add₀ (by norm_num), zpow_one] at h2
    linarith
  rw [Nat.floor_lt (by nlinarith)]
  push_cast
  nlinarith

/-- The value of a sign digit and two fields (rule R160). -/
theorem unsigned_pattern {c m x y : Nat} (neg : Bool) (hx : x < 2 ^ c) (hy : y < 2 ^ m) :
    unsigned (neg :: (bin c x ++ bin m y)) = (if neg then 2 ^ (c + m) else 0) + x * 2 ^ m + y := by
  simp only [unsigned_cons, unsigned_append, unsigned_bin hx, unsigned_bin hy, length_bin, List.length_append, bitValue]
  cases neg
  · simp
  · simp
    ring

/-- The digits of a sign digit and two fields (rule R160). -/
theorem bin_pattern {c m x y : Nat} (neg : Bool) (hx : x < 2 ^ c) (hy : y < 2 ^ m) :
    bin (1 + c + m) ((if neg then 2 ^ (c + m) else 0) + x * 2 ^ m + y) = neg :: (bin c x ++ bin m y) := by
  rw [← unsigned_pattern neg hx hy]
  have := bin_unsigned (neg :: (bin c x ++ bin m y))
  rwa [show (neg :: (bin c x ++ bin m y)).length = 1 + c + m by simp; omega] at this

end Sys2Proof.Machine
end

