-- ==== Sys2Proof/Tests/Slice0.lean ====
section
/-!
SUPPORT. Tests, and witnesses for the hypotheses of the statements. The expected results of the tests come from the rules of the
spec and the rows of 95_test_vectors.md (named by section and row: "2.1 row 4"), never from the model.
-/

namespace Sys2Proof.Tests

open Sys2Proof.Machine Sys2Proof.Safety

/-! ### WellFormed: each check refuses an ill-formed term (rule R61) -/

theorem test_w_field_checked : ¬(Instr.uenc 128 0 0).WellFormed := by decide
theorem test_k_field_checked : ¬(Instr.fxenc 0 128 4).WellFormed := by decide
theorem test_j_field_checked : ¬(Instr.fxdec 0 4 128).WellFormed := by decide
theorem test_widest_fields_pass : (Instr.f64dec 127 127 127).WellFormed := by decide

/-! ### Decoding: the words of rule R61, RSV J K W OPC from bit 31 down, written bit by bit -/

theorem test_decode_uenc : decode 0b0000000_0000000_0000000_0001000_0000#32 = .ok (.uenc 8 0 0) := by decide
theorem test_decode_udec : decode 0b0000000_1111111_1111111_1111111_0001#32 = .ok (.udec 127 127 127) := by decide
theorem test_decode_smenc : decode 0b0000000_0000000_0000000_1000000_0010#32 = .ok (.smenc 64 0 0) := by decide
theorem test_decode_smdec : decode 0b0000000_0000001_0000010_0000100_0011#32 = .ok (.smdec 4 2 1) := by decide
theorem test_decode_ocenc : decode 0b0000000_0000000_0000000_1000001_0100#32 = .ok (.ocenc 65 0 0) := by decide
theorem test_decode_ocdec : decode 0b0000000_0000000_0000000_0000000_0101#32 = .ok (.ocdec 0 0 0) := by decide
theorem test_decode_tcenc : decode 0b0000000_0000000_0000000_0000001_0110#32 = .ok (.tcenc 1 0 0) := by decide
theorem test_decode_tcdec : decode 0b0000000_0000000_0000000_0000000_0111#32 = .ok (.tcdec 0 0 0) := by decide
theorem test_decode_fxenc : decode 0b0000000_0100000_0011111_0000000_1000#32 = .ok (.fxenc 0 31 32) := by decide
theorem test_decode_fxdec : decode 0b0000000_0000100_0000001_0000000_1001#32 = .ok (.fxdec 0 1 4) := by decide
theorem test_decode_f32enc : decode 0b0000000_0000000_0000000_0100000_1010#32 = .ok (.f32enc 32 0 0) := by decide
theorem test_decode_f32dec : decode 0b0000000_0000000_0000000_0000000_1011#32 = .ok (.f32dec 0 0 0) := by decide
theorem test_decode_f64enc : decode 0b0000000_0000000_0000000_1000000_1100#32 = .ok (.f64enc 64 0 0) := by decide
theorem test_decode_f64dec : decode 0b0000000_0000000_0000000_0000000_1101#32 = .ok (.f64dec 0 0 0) := by decide
theorem test_decode_opcode_e : decode 0b0000000_0000000_0000000_0000000_1110#32 = .error .reservedOpcode := by decide
theorem test_decode_opcode_f : decode 0b0000000_1111111_1111111_1111111_1111#32 = .error .reservedOpcode := by decide
theorem test_decode_rsv_low : decode 0b0000001_0000000_0000000_0001000_0000#32 = .error .reservedBitsSet := by decide
theorem test_decode_rsv_high : decode 0b1000000_0000000_0000000_0000000_0001#32 = .error .reservedBitsSet := by decide
theorem test_encode_fxenc : encode (.fxenc 0 40 30) = 0x00794008#32 := by decide
theorem test_table_word : decodeTableWord 32 0x00102009 = some (.fxdec 0 4 4) := by decide

/-! ### One step of each instruction -/

/-- A state whose next request has a given operand. -/
def withOperand (operand : Text) : State := { rsp := Rsp.reset, pending := [.issue 0 operand] }

/-- RSP after an instruction with a given operand. -/
def rspAfter (i : Instr) (operand : String) : Option Rsp :=
  match exec i (withOperand (ascii operand)) with
  | .next t => some t.rsp
  | .fault _ => none
  | .refused _ => none

/-- RSP with an error status (rule R28). -/
def errorRsp (code : BitVec 4) : Rsp := ⟨1, code, 0, 0, 0, 0, 0⟩

/-- RSP with BITS of a given length and value (rule R75). -/
def bitsRsp (len : BitVec 7) (sig : BitVec 64) : Rsp := ⟨1, 0, 1, 0, len, sig, 0⟩

/-- RSP with NUM of a given sign, significand and exponent (rule R75). -/
def numRsp (neg : BitVec 1) (sig : BitVec 64) (exp : Int) : Rsp := ⟨1, 0, 2, neg, 0, sig, BitVec.ofInt 16 exp⟩

/-- 2.1 row 12 -/
theorem test_uenc_widest : rspAfter (.uenc 64 0 0) "18446744073709551615" = some (bitsRsp 64 0xFFFFFFFFFFFFFFFF) := by decide
/-- 2.1 row 5 -/
theorem test_uenc_negative_before_overflow : rspAfter (.uenc 8 0 0) "-300" = some (errorRsp 2) := by decide
/-- 2.2 row 4 -/
theorem test_udec_separators : rspAfter (.udec 0 0 0) "1 0.1-1" = some (numRsp 0 11 0) := by decide
/-- 2.2 row 1 -/
theorem test_udec_canonical : rspAfter (.udec 0 0 0) "00001010" = some (numRsp 0 5 1) := by decide
/-- 2.3 row 4 -/
theorem test_smenc_least : rspAfter (.smenc 8 0 0) "-127" = some (bitsRsp 8 0xFF) := by decide
/-- 2.3 row 6 -/
theorem test_smenc_overflow : rspAfter (.smenc 8 0 0) "-128" = some (errorRsp 4) := by decide
/-- 2.4 row 1 -/
theorem test_smdec_negative : rspAfter (.smdec 0 0 0) "10000101" = some (numRsp 1 5 0) := by decide
/-- 2.4 row 5 -/
theorem test_smdec_one_digit : rspAfter (.smdec 0 0 0) "1" = some (numRsp 1 0 0) := by decide
/-- 2.5 row 1 -/
theorem test_ocenc_negative : rspAfter (.ocenc 8 0 0) "-5" = some (bitsRsp 8 0xFA) := by decide
/-- 2.5 row 7 -/
theorem test_ocenc_minus_zero : rspAfter (.ocenc 8 0 0) "-0" = some (bitsRsp 8 0) := by decide
/-- 2.6 row 5 -/
theorem test_ocdec_negative : rspAfter (.ocdec 0 0 0) "10000000" = some (numRsp 1 127 0) := by decide
/-- 2.6 row 3 -/
theorem test_ocdec_minus_zero : rspAfter (.ocdec 0 0 0) "11111111" = some (numRsp 1 0 0) := by decide
/-- 2.7 row 3 -/
theorem test_tcenc_least : rspAfter (.tcenc 8 0 0) "-128" = some (bitsRsp 8 0x80) := by decide
/-- 2.7 row 6 -/
theorem test_tcenc_below_least : rspAfter (.tcenc 8 0 0) "-129" = some (errorRsp 4) := by decide
/-- 2.8 row 3 -/
theorem test_tcdec_least : rspAfter (.tcdec 0 0 0) "10000000" = some (numRsp 1 1 7) := by decide
/-- 2.8 row 2 -/
theorem test_tcdec_all_ones : rspAfter (.tcdec 0 0 0) "11111111" = some (numRsp 1 1 0) := by decide
/-- 2.9 row 3 -/
theorem test_fxenc_negative_fraction : rspAfter (.fxenc 0 4 4) "-0.5" = some (bitsRsp 9 0b100001000) := by decide
/-- 2.9 row 11 -/
theorem test_fxenc_truncates_to_minus_zero : rspAfter (.fxenc 0 1 4) "-0.01" = some (bitsRsp 6 0b100000) := by decide
/-- 2.10 row 3 -/
theorem test_fxdec_separators : rspAfter (.fxdec 0 4 4) "0.0010.1000" = some (numRsp 0 5 (-1)) := by decide
/-- 2.10 row 6 -/
theorem test_fxdec_width : rspAfter (.fxdec 0 4 4) "00010100" = some (errorRsp 3) := by decide
/-- 2.11 row 5 -/
theorem test_f32enc_truncates : rspAfter (.f32enc 32 0 0) "0.1" = some (bitsRsp 32 0x3DCCCCCC) := by decide
/-- 2.11 row 11 -/
theorem test_f32enc_nan_without_sign : rspAfter (.f32enc 32 0 0) "-nan" = some (bitsRsp 32 0x7FC00000) := by decide
/-- 2.12 row 10 -/
theorem test_f32dec_exponent_zero :
    rspAfter (.f32dec 0 0 0) "0 00000000 00000000000000000000001" = some (numRsp 0 8388609 (-150)) := by decide
/-- 2.12 row 5 -/
theorem test_f32dec_minus_infinity :
    rspAfter (.f32dec 0 0 0) "1 11111111 00000000000000000000000" = some ⟨1, 0, 3, 1, 0, 0, 0⟩ := by decide
/-- 2.13 row 4 -/
theorem test_f64enc_truncates : rspAfter (.f64enc 64 0 0) "0.1" = some (bitsRsp 64 0x3FB9999999999999) := by decide
/-- 2.13 row 11 -/
theorem test_f64enc_width : rspAfter (.f64enc 32 0 0) "1" = some (errorRsp 6) := by decide
/-- 2.14 row 6 -/
theorem test_f64dec_least_exponent :
    rspAfter (.f64dec 0 0 0) "0000000000000000000000000000000000000000000000000000000000000001" =
      some (numRsp 0 4503599627370497 (-1075)) := by decide
/-- 2.14 row 3 -/
theorem test_f64dec_nan :
    rspAfter (.f64dec 0 0 0) "1111111111111000000000000000000000000000000000000000000000000000" =
      some ⟨1, 0, 4, 0, 0, 0, 0⟩ := by decide

/-- Rule R166 under both values of NEG_ZERO_SIGN (2.11 row 13, and row 1 of its second table). -/
theorem test_negative_zero_sign :
    Rsp.ofReply (fenc Config.f32 false 32 (ascii "-0.0")) = bitsRsp 32 0 ∧
    Rsp.ofReply (fenc Config.f32 true 32 (ascii "-0.0")) = bitsRsp 32 0x80000000 := by decide

/-! ### The step, the host's side and the procedures of the source -/

/-- 2.15 row 1: an illegal word answers 7 with no result, and the host's list moves on. -/
theorem test_step_illegal_word :
    step { rsp := bitsRsp 8 10, pending := [.issue 0x0000000E#32 [], .reset] } =
      .next { rsp := errorRsp 7, pending := [.reset] } := rfl

/-- P3 step 5: reset clears RSP. -/
theorem test_step_reset : step { rsp := bitsRsp 9 0x28, pending := [.reset] } = .next State.reset := rfl

/-- A request whose operand does not fit is refused (rule R206). -/
theorem test_step_overlong_operand :
    step { State.reset with pending := [.issue 0x00000080#32 (List.replicate (Config.operandCapacity + 1) 0x31#8)] } =
      .refused .operandTooLong := by
  simp [step, perform, State.nextAction, operandFits]

/-- The word that withFetchWord places is the one the next step runs (2.1 row 18: UENC of the empty operand). -/
theorem test_fetch_word_runs_first :
    step (State.reset.withFetchWord 32 0x00000080) = .next { rsp := errorRsp 1, pending := [] } := rfl

/-- P1 step 3: `$prev` stands for the rendered result, and the line assembles to the word of rule R86. -/
theorem test_assemble_prev :
    assemble (numRsp 1 5 0) (.op "SMENC" (some 8) none none .prev) = .ok (.issue 0x00000082#32 (ascii "-5")) := by decide

/-- 2.9 row 17, as text. -/
theorem test_parse_line :
    parseLine (ascii "FXENC k=40 j=30 \"1\"") = .ok (.op "FXENC" none (some 40) (some 30) (.text (ascii "1"))) := by decide

/-- P2 step 3: the exact decimal expansion of a dyadic number (rule R89). -/
theorem test_render_dyadic :
    render (numRsp 0 3355443 (-25)).result = some (ascii "0.0999999940395355224609375") := by decide

/-- 41_fixed_point.md section 3: 0.1 with four fraction digits, by repeated doubling. -/
theorem test_repeated_doubling : repeatedDoubling 10 4 1 = [false, false, false, true] := by decide

/-- Rule R164: 5 is binary 101, first set bit at index 0, integer part length 3, so E = 2 (90_conflicts.md C4). -/
theorem test_first_set_bit_window : windowExponent 5 1 4 = 2 ∧ windowMantissa 2 5 1 4 = 1 := by decide

/-- Rule R172: -2.5 has E = 1 and the hand-off reads `1` `10` `1` with k = 2. -/
theorem test_hand_off :
    (handOffMag Config.f32 (true :: ([true, false, false, false, false, false, false, false] ++
      false :: true :: List.replicate 21 false)) 1).canon = { sig := 5, exp := -1 } := by decide

/-! ### Texts for the witnesses -/

theorem intText_plain {ds : Text} {n : Nat} (h : parseDigits ds = some n) : IntText ds false n :=
  ⟨[], ds, rfl, .inl ⟨rfl, rfl⟩, (parseDigits_eq_some ds n).1 h⟩

theorem intText_minus {ds : Text} {n : Nat} (h : parseDigits ds = some n) : IntText (0x2D#8 :: ds) true n :=
  ⟨[0x2D#8], ds, rfl, .inr (.inr ⟨rfl, rfl⟩), (parseDigits_eq_some ds n).1 h⟩

theorem decText_plain {ds : Text} {n : Nat} (h : parseDigits ds = some n) : DecText ds false n :=
  ⟨[], ds, n, .inl ⟨rfl, rfl⟩, (parseDigits_eq_some ds n).1 h, .inl ⟨rfl, rfl⟩⟩

theorem decText_minus {ds : Text} {n : Nat} (h : parseDigits ds = some n) : DecText (0x2D#8 :: ds) true n :=
  ⟨[0x2D#8], ds, n, .inr (.inr ⟨rfl, rfl⟩), (parseDigits_eq_some ds n).1 h, .inl ⟨rfl, rfl⟩⟩

theorem decText_point {ids fds : Text} {i f d : Nat} {a : ℚ} (hi : parseDigits ids = some i) (hf : parseDigits fds = some f)
    (hd : fds.length = d) (ha : a = i + f / 10 ^ d) : DecText (ids ++ 0x2E#8 :: fds) false a :=
  ⟨[], ids, i, .inl ⟨rfl, rfl⟩, (parseDigits_eq_some ids i).1 hi,
    .inr ⟨fds, f, (parseDigits_eq_some fds f).1 hf, rfl, hd ▸ ha⟩⟩

theorem not_intText_nil : ¬∃ neg n, IntText [] neg n := by
  rintro ⟨neg, n, sg, ds, h, -, hd⟩
  exact hd.1 (List.append_eq_nil_iff.1 h.symm).2

theorem not_decText_nil : ¬∃ neg a, DecText [] neg a := by
  rintro ⟨neg, a, sg, ids, i, -, hd, ⟨h, -⟩ | ⟨fds, f, -, h, -⟩⟩
  · exact hd.1 (List.append_eq_nil_iff.1 h.symm).2
  · simp at h

theorem not_wordText_nil {word : Text} (hw : word ≠ []) : ¬∃ neg, WordText [] neg word := by
  rintro ⟨neg, sg, body, h, -, hf⟩
  rw [(List.append_eq_nil_iff.1 h.symm).2] at hf
  cases hf
  exact hw rfl

theorem not_infText_nil : ¬∃ neg, InfText [] neg := by
  rintro ⟨neg, h | h⟩
  exacts [not_wordText_nil (by decide) ⟨neg, h⟩, not_wordText_nil (by decide) ⟨neg, h⟩]

theorem not_nanText_nil : ¬∃ neg, NanText [] neg := not_wordText_nil (by decide)

theorem not_bitText_nil : ¬∃ bs, BitText [] bs := by
  rintro ⟨bs, h, hf⟩
  exact h (List.map_eq_nil_iff.1 hf.symm)

/-- The digits themselves are a binary operand. -/
theorem bitText_digits (bs : BitString) (h : bs ≠ []) : BitText (bs.map (fun b => if b then 0x31#8 else 0x30#8)) bs := by
  refine ⟨h, List.filter_eq_self.2 ?_⟩
  intro c hc
  obtain ⟨b, -, rfl⟩ := List.mem_map.1 hc
  cases b <;> decide

theorem infText_inf : InfText (ascii "inf") false :=
  .inl ⟨[], ascii "inf", rfl, .inl ⟨rfl, rfl⟩, .cons (.inl rfl) (.cons (.inl rfl) (.cons (.inl rfl) .nil))⟩

theorem nanText_minus : NanText (ascii "-NaN") true :=
  ⟨[0x2D#8], ascii "NaN", rfl, .inr (.inr ⟨rfl, rfl⟩), .cons (.inr rfl) (.cons (.inl rfl) (.cons (.inr rfl) .nil))⟩

/-! ### Witnesses: the hypotheses of the statements can be met -/

/-- DecodeEncodeRoundTrip and AssembledWordIsTheEncoding, at the largest fields. -/
theorem witness_wellFormed : (Instr.f64dec 127 127 127).WellFormed ∧ (Instr.uenc 0 0 0).WellFormed := by decide

/-- EncodeDecodeRoundTrip. -/
theorem witness_EncodeDecodeRoundTrip : decode 0x01FFFFF1#32 = .ok (.udec 127 127 127) := by decide

/-- IllegalWordsAnswerIllegalOperation: the least and the greatest RSV, and the two reserved opcodes. -/
theorem witness_IllegalWordsAnswerIllegalOperation :
    ∀ cmd ∈ [0x02000000#32, 0xFE000000#32, 0x0000000E#32, 0x01FFFFFF#32],
      ∃ (s : State) (operand : Text) (rest : List HostAction), s.pending = .issue cmd operand :: rest ∧
        operand.length ≤ Config.operandCapacity ∧ (cmd.toNat / 2 ^ 25 ≠ 0 ∨ 14 ≤ cmd.toNat % 16) := by
  intro cmd hc
  refine ⟨{ rsp := Rsp.reset, pending := [.issue cmd []] }, [], [], rfl, Nat.zero_le _, ?_⟩
  simp only [List.mem_cons, List.not_mem_nil, or_false] at hc
  rcases hc with rfl | rfl | rfl | rfl <;> decide

/-- StepRunsTheDecodedInstruction. -/
theorem witness_StepRunsTheDecodedInstruction :
    ∃ (s : State) (operand : Text) (rest : List HostAction), (Instr.uenc 8 0 0).WellFormed ∧
      s.pending = .issue (encode (.uenc 8 0 0)) operand :: rest ∧ operand.length ≤ Config.operandCapacity :=
  ⟨{ rsp := Rsp.reset, pending := [.issue (encode (.uenc 8 0 0)) (ascii "10")] }, ascii "10", [], by decide, rfl,
    le_trans (by decide : (ascii "10").length ≤ 70) (Nat.le_add_left 70 Config.spareCapacity)⟩

/-- RefusedExactlyWhenOperandTooLong: both sides occur. -/
theorem witness_RefusedExactlyWhenOperandTooLong :
    ∃ s : State, ∃ cmd operand rest, s.pending = .issue cmd operand :: rest ∧ Config.operandCapacity < operand.length :=
  ⟨{ rsp := Rsp.reset, pending := [.issue 0 (List.replicate (Config.operandCapacity + 1) 0x31#8)] }, _, _, _, rfl, by simp⟩

/-- OperandsOfSeventyOctetsAreAdmitted, at 70 octets. -/
theorem witness_OperandsOfSeventyOctetsAreAdmitted :
    ∃ (s : State) (cmd : CmdWord) (operand : Text) (rest : List HostAction),
      s.pending = .issue cmd operand :: rest ∧ operand.length = 70 :=
  ⟨{ rsp := Rsp.reset, pending := [.issue 0 (List.replicate 70 0x31#8)] }, _, _, _, rfl, List.length_replicate⟩

/-- ResetActionZeroesRsp: both actions, from a state whose RSP is not zero. -/
theorem witness_ResetActionZeroesRsp :
    ∀ a ∈ [HostAction.reset, .powerCycle], ∃ (s : State) (rest : List HostAction),
      s.rsp ≠ Rsp.reset ∧ s.pending = a :: rest ∧ (a = .reset ∨ a = .powerCycle) := by
  intro a ha
  refine ⟨{ rsp := bitsRsp 8 10, pending := [a] }, [], (by decide : bitsRsp 8 10 ≠ Rsp.reset), rfl, ?_⟩
  simpa using ha

/-- IdleStepChangesNothing. -/
theorem witness_IdleStepChangesNothing : ({ rsp := bitsRsp 8 10, pending := [] } : State).pending = [] := rfl

/-- ResponseIgnoresThePreviousResponse: the two states differ. -/
theorem witness_ResponseIgnoresThePreviousResponse :
    ∃ s t : State, s.operand = t.operand ∧ s ≠ t :=
  ⟨withOperand (ascii "10"), { withOperand (ascii "10") with rsp := bitsRsp 8 10 }, rfl, by decide⟩

/-- IssuingTwiceLeavesTheSameRsp. -/
theorem witness_IssuingTwiceLeavesTheSameRsp :
    ∃ (s t : State) (cmd : CmdWord) (operand : Text) (rest : List HostAction),
      s.pending = .issue cmd operand :: .issue cmd operand :: rest ∧ step s = .next t :=
  ⟨{ rsp := Rsp.reset, pending := [.issue 0x00000080#32 [], .issue 0x00000080#32 []] },
    { rsp := errorRsp 1, pending := [.issue 0x00000080#32 []] }, _, _, _, rfl, rfl⟩

/-- RspHoldsTheLastResponse. -/
theorem witness_RspHoldsTheLastResponse :
    ∃ (s : State) (before : List HostAction) (last : HostAction),
      (∀ a ∈ before, Admitted a) ∧ Admitted last ∧ s.pending = before ++ [last] ∧ before.length = 2 := by
  refine ⟨{ rsp := errorRsp 1, pending := [.issue 0x0000000E#32 [], .reset, .issue 0x00000080#32 []] },
    [.issue 0x0000000E#32 [], .reset], .issue 0x00000080#32 [], ?_, Nat.zero_le _, rfl, rfl⟩
  intro a ha
  simp only [List.mem_cons, List.not_mem_nil, or_false] at ha
  rcases ha with rfl | rfl
  exacts [Nat.zero_le _, trivial]

/-- EveryStepKeepsRspLegal, from an RSP that is not the reset value. -/
theorem witness_EveryStepKeepsRspLegal : ∃ s t : State, Inv s ∧ step s = .next t ∧ s.rsp ≠ t.rsp := by
  refine ⟨{ rsp := numRsp 1 5 (-1), pending := [.issue 0x00000080#32 []] }, { rsp := errorRsp 1, pending := [] }, ?_, rfl,
    by decide⟩
  constructor <;> decide

/-- FailedOperationLeavesNoResult and StatusCodesOfEachOperation. -/
theorem witness_exec_next : ∃ (i : Instr) (s t : State), exec i s = .next t ∧ t.rsp.rspStatus ≠ 0 :=
  ⟨.uenc 0 0 0, withOperand (ascii "10"), { withOperand (ascii "10") with rsp := errorRsp 5 }, rfl, by decide⟩

theorem isNum_minus_five_halves : IsNum true (5 / 2) (numRsp 1 5 (-1)) := by
  refine ⟨rfl, rfl, rfl, by decide, rfl, ?_, ?_, fun _ => rfl⟩
  · have h1 : (numRsp 1 5 (-1)).resSig.toNat = 5 := rfl
    have h2 : (numRsp 1 5 (-1)).resExp.toInt = -1 := by decide
    rw [h1, h2]
    norm_num
  · intro h
    norm_num at h

/-- CanonicalPairIsUnique and RenderedNumbersReadBackExactly. -/
theorem witness_isNum : ∃ (r : Rsp) (neg : Bool) (q : ℚ), IsNum neg q r ∧ q ≠ 0 :=
  ⟨_, _, _, isNum_minus_five_halves, by norm_num⟩

/-- BinIsTheUniqueStringOfItsValue: the greatest value of a length, and the empty string. -/
theorem witness_BinIsTheUniqueStringOfItsValue : 15 < 2 ^ 4 ∧ 0 < 2 ^ 0 := by decide

/-- The integer encoders' statements, clause by clause: widths just outside and at the ends, a text that is no integer, and the
values at the ends of the ranges for w = 8. -/
theorem witness_integer_encoders :
    ((0 : Nat) < 1 ∨ 64 < 0) ∧ (65 < 1 ∨ 64 < 65) ∧ (1 ≤ 1 ∧ 1 ≤ 64) ∧ (1 ≤ 64 ∧ 64 ≤ 64) ∧
    (¬∃ neg n, IntText (withOperand []).operand neg n) ∧
    IntText (withOperand (ascii "-1")).operand true 1 ∧
    (IntText (withOperand (ascii "256")).operand false 256 ∧ 2 ^ 8 ≤ 256) ∧
    (IntText (withOperand (ascii "255")).operand false 255 ∧ 255 < 2 ^ 8) ∧
    (IntText (withOperand (ascii "-0")).operand true 0 ∧ ¬(true = true ∧ 0 < 0)) ∧
    (IntText (withOperand (ascii "-128")).operand true 128 ∧ 2 ^ (8 - 1) ≤ 128 ∧ -2 ^ (8 - 1) ≤ -(128 : ℤ)) ∧
    (IntText (withOperand (ascii "-127")).operand true 127 ∧ 127 < 2 ^ (8 - 1)) ∧
    (IntText (withOperand (ascii "-129")).operand true 129 ∧ -(129 : ℤ) < -2 ^ (8 - 1)) ∧
    (IntText (withOperand (ascii "128")).operand false 128 ∧ (2 : ℤ) ^ (8 - 1) - 1 < 128) ∧
    (IntText (withOperand (ascii "127")).operand false 127 ∧ (127 : ℤ) ≤ 2 ^ (8 - 1) - 1) :=
  ⟨by decide, by decide, by decide, by decide, not_intText_nil, intText_minus (by decide),
    ⟨intText_plain (by decide), by decide⟩, ⟨intText_plain (by decide), by decide⟩, ⟨intText_minus (by decide), by decide⟩,
    ⟨intText_minus (by decide), by decide, by decide⟩, ⟨intText_minus (by decide), by decide⟩,
    ⟨intText_minus (by decide), by decide⟩, ⟨intText_plain (by decide), by decide⟩, ⟨intText_plain (by decide), by decide⟩⟩

/-- IntegerCodecsRoundTrip: each of its four pairs at an end of its range, for w = 8. -/
theorem witness_IntegerCodecsRoundTrip :
    IntText (withOperand (ascii "255")).operand false 255 ∧ IntText (withOperand (ascii "-127")).operand true 127 ∧
    IntText (withOperand (ascii "-128")).operand true 128 ∧ 255 < 2 ^ 8 ∧ 127 < 2 ^ (8 - 1) ∧ 128 = 2 ^ (8 - 1) :=
  ⟨intText_plain (by decide), intText_minus (by decide), intText_minus (by decide), by decide, by decide, by decide⟩

/-- The integer decoders' statements and DecodersAreTotalWithinTheirRanges: no digits, one digit, 64 digits and 65 digits, with
either first digit. -/
theorem witness_integer_decoders :
    (¬∃ bs, BitText (withOperand []).operand bs) ∧
    ∀ b : Bool,
      (∃ s : State, BitText s.operand (b :: []) ∧ (b :: []).length ≤ 64) ∧
      (∃ s : State, BitText s.operand (b :: List.replicate 63 true) ∧ (b :: List.replicate 63 true).length ≤ 64) ∧
      (∃ s : State, BitText s.operand (b :: List.replicate 64 true) ∧ 64 < (b :: List.replicate 64 true).length) :=
  ⟨not_bitText_nil, fun _ => ⟨⟨withOperand _, bitText_digits _ (by simp), by simp⟩,
    ⟨withOperand _, bitText_digits _ (by simp), by simp⟩, ⟨withOperand _, bitText_digits _ (by simp), by simp⟩⟩⟩

/-- ZeroPatternsOfEachRepresentation, at both ends of the widths. -/
theorem witness_ZeroPatternsOfEachRepresentation :
    ∀ n ∈ [0, 63], ∃ (s : State) (bs : BitString), BitText s.operand bs ∧ bs.length = n + 1 ∧ n + 1 ≤ 64 := by
  intro n hn
  refine ⟨withOperand _, List.replicate (n + 1) true, bitText_digits _ (by simp), by simp, ?_⟩
  simp only [List.mem_cons, List.not_mem_nil, or_false] at hn
  omega

/-- FxencFollowsItsRule: parameters just outside and at the ends, a text that is no decimal, and the values next to 2^k. -/
theorem witness_FxencFollowsItsRule :
    ((0 : Nat) < 1 ∨ 4 < 1 ∨ 64 < 0 + 4 + 1) ∧ (4 < 1 ∨ 0 < 1 ∨ 64 < 4 + 0 + 1) ∧ (32 < 1 ∨ 32 < 1 ∨ 64 < 32 + 32 + 1) ∧
    (1 ≤ 1 ∧ 1 ≤ 62 ∧ 1 + 62 + 1 ≤ 64) ∧ (¬∃ neg a, DecText (withOperand []).operand neg a) ∧
    (DecText (withOperand (ascii "16")).operand false 16 ∧ (2 : ℚ) ^ 4 ≤ 16) ∧
    (∃ a : ℚ, DecText (withOperand (ascii "15.9999")).operand false a ∧ a < 2 ^ 4) ∧
    (DecText (withOperand (ascii "-0")).operand true ((0 : ℕ) : ℚ)) :=
  ⟨by decide, by decide, by decide, by decide, not_decText_nil, ⟨by exact_mod_cast decText_plain (n := 16) (by decide), by norm_num⟩,
    ⟨15 + 9999 / 10 ^ 4, decText_point (ids := ascii "15") (fds := ascii "9999") (i := 15) (f := 9999) (d := 4) (by decide) (by decide)
      (by decide) (by norm_num), by norm_num⟩, decText_minus (by decide)⟩

/-- FxdecFollowsItsRule: a wrong length, and a string of the layout k = 1, j = 62 with 64 digits. -/
theorem witness_FxdecFollowsItsRule :
    ((0 : Nat) < 1 ∨ 4 < 1 ∨ 64 < 0 + 4 + 1) ∧ (1 ≤ 1 ∧ 1 ≤ 62 ∧ 1 + 62 + 1 ≤ 64) ∧
    (¬∃ bs, BitText (withOperand []).operand bs) ∧
    (∃ (s : State) (bs : BitString), BitText s.operand bs ∧ bs.length ≠ 1 + 62 + 1) ∧
    (∃ (s : State) (ip fb : BitString), BitText s.operand (true :: (ip ++ fb)) ∧ ip.length = 1 ∧ fb.length = 62) :=
  ⟨by decide, by decide, not_bitText_nil, ⟨withOperand _, [true], bitText_digits _ (by simp), by simp⟩,
    ⟨withOperand _, [true], List.replicate 62 true, bitText_digits _ (by simp), rfl, by simp⟩⟩

/-- RepeatedDoublingGivesTheFractionDigits: 1/10. -/
theorem witness_RepeatedDoublingGivesTheFractionDigits : (1 : Nat) < 10 := by decide

/-- FixedPointTruncationBound: 0.1 with k = 1, j = 4 (95_test_vectors.md W6). -/
theorem witness_FixedPointTruncationBound :
    (1 ≤ 1 ∧ 1 ≤ 4 ∧ 1 + 4 + 1 ≤ 64) ∧ ∃ a : ℚ, DecText (withOperand (ascii "0.1")).operand false a ∧ a < 2 ^ 1 :=
  ⟨by decide, 1 / 10, decText_point (ids := ascii "0") (fds := ascii "1") (i := 0) (f := 1) (d := 1) (by decide) (by decide)
    (by decide) (by norm_num), by norm_num⟩

/-- `0.`, 38 zeros and `58774720`: a value from 2^-127 up to, not including, 2^-127 * (1 + 2^-23). -/
def tinyText : Text := [0x30#8] ++ 0x2E#8 :: (List.replicate 38 0x30#8 ++ ascii "58774720")

theorem tinyText_spec : DecText tinyText false (58774720 / 10 ^ 46) :=
  decText_point (i := 0) (f := 58774720) (d := 46) (by decide) (by decide) (by decide) (by norm_num)

/-- `2` and 308 zeros: above 2^1024. -/
def hugeText : Text := 0x32#8 :: List.replicate 308 0x30#8

set_option exponentiation.threshold 1100 in
set_option maxRecDepth 4000 in
theorem hugeText_spec : DecText hugeText false (2 * 10 ^ 308) := by
  have : DecText hugeText false ((2 * 10 ^ 308 : ℕ) : ℚ) := decText_plain (by decide)
  exact_mod_cast this

theorem decText_five_halves : DecText (ascii "2.5") false (5 / 2) :=
  decText_point (ids := ascii "2") (fds := ascii "5") (i := 2) (f := 5) (d := 1) (by decide) (by decide) (by decide) (by norm_num)

theorem decText_minus_zero : DecText (ascii "-0") true 0 := by
  have : DecText (ascii "-0") true ((0 : ℕ) : ℚ) := decText_minus (ds := ascii "0") (n := 0) (by decide)
  exact_mod_cast this

set_option exponentiation.threshold 1100 in
/-- FencFollowsItsRule: a text of no kind, each kind of text, and finite values that overflow at the top (F64: 2 * 10^308; then
2^C - 1 <= eb), that fall on the bottom (F32: eb = 0 and mant = 0) and that are encoded. -/
theorem witness_FencFollowsItsRule :
    (31 ≠ 1 + 8 + 23 ∧ 32 = 1 + 8 + 23 ∧ 64 = 1 + 11 + 52) ∧
    ((¬∃ neg, InfText (withOperand []).operand neg) ∧ (¬∃ neg, NanText (withOperand []).operand neg) ∧
      ¬∃ neg a, DecText (withOperand []).operand neg a) ∧
    InfText (withOperand (ascii "inf")).operand false ∧ NanText (withOperand (ascii "-NaN")).operand true ∧
    DecText (withOperand (ascii "-0")).operand true 0 ∧
    (DecText (withOperand hugeText).operand false (2 * 10 ^ 308) ∧ (2 : ℚ) ^ (1024 : ℤ) ≤ 2 * 10 ^ 308 ∧
      (2 * 10 ^ 308 : ℚ) < 2 ^ ((1024 : ℤ) + 1) ∧ (2 : ℤ) ^ 11 - 1 ≤ 1024 + 1023) ∧
    (DecText (withOperand tinyText).operand false (58774720 / 10 ^ 46) ∧
      (2 : ℚ) ^ (-127 : ℤ) ≤ 58774720 / 10 ^ 46 ∧ (58774720 / 10 ^ 46 : ℚ) < 2 ^ ((-127 : ℤ) + 1) ∧
      (-127 : ℤ) + 127 = 0 ∧ ⌊((58774720 / 10 ^ 46 : ℚ) / 2 ^ (-127 : ℤ) - 1) * 2 ^ 23⌋₊ = 0) ∧
    (DecText (withOperand (ascii "2.5")).operand false (5 / 2) ∧ (2 : ℚ) ^ (1 : ℤ) ≤ 5 / 2 ∧
      (5 / 2 : ℚ) < 2 ^ ((1 : ℤ) + 1) ∧ ¬((2 : ℤ) ^ 8 - 1 ≤ 1 + 127 ∨ (1 : ℤ) + 127 < 0)) := by
  refine ⟨by decide, ⟨not_infText_nil, not_nanText_nil, not_decText_nil⟩, infText_inf, nanText_minus, decText_minus_zero,
    ⟨hugeText_spec, by norm_num, by norm_num, by norm_num⟩, ⟨tinyText_spec, by norm_num, by norm_num, by norm_num, ?_⟩,
    ⟨decText_five_halves, by norm_num, by norm_num, by norm_num⟩⟩
  rw [Nat.floor_eq_zero]
  norm_num

/-- FdecFollowsItsRule and IeeeDecodeThenEncode, layout F32: a wrong length, and a pattern of each of the four classes. -/
theorem witness_fdec_f32 :
    (¬∃ bs, BitText (withOperand []).operand bs) ∧
    (∃ (s : State) (bs : BitString), BitText s.operand bs ∧ bs.length ≠ 1 + 8 + 23) ∧
    ∀ c ∈ [(255, 0), (255, 1), (0, 0), (0, 1), (254, 8388607)],
      ∃ (s : State) (es ms : BitString), BitText s.operand (true :: (es ++ ms)) ∧ es.length = 8 ∧ ms.length = 23 ∧
        uValue es = c.1 ∧ uValue ms = c.2 := by
  refine ⟨not_bitText_nil, ⟨withOperand _, [true], bitText_digits _ (by simp), by simp⟩, ?_⟩
  intro c hc
  have hb : c.1 < 2 ^ 8 ∧ c.2 < 2 ^ 23 := by
    revert c
    decide
  refine ⟨withOperand _, bin 8 c.1, bin 23 c.2, bitText_digits _ (by simp), by simp, by simp, ?_, ?_⟩
  · rw [← unsigned_eq_uValue, unsigned_bin hb.1]
  · rw [← unsigned_eq_uValue, unsigned_bin hb.2]

/-- The same for the layout F64. -/
theorem witness_fdec_f64 :
    (∃ (s : State) (bs : BitString), BitText s.operand bs ∧ bs.length ≠ 1 + 11 + 52) ∧
    ∀ c ∈ [(2047, 0), (2047, 1), (0, 0), (0, 1), (2046, 4503599627370495)],
      ∃ (s : State) (es ms : BitString), BitText s.operand (true :: (es ++ ms)) ∧ es.length = 11 ∧ ms.length = 52 ∧
        uValue es = c.1 ∧ uValue ms = c.2 := by
  refine ⟨⟨withOperand _, [true], bitText_digits _ (by simp), by simp⟩, ?_⟩
  intro c hc
  have hb : c.1 < 2 ^ 11 ∧ c.2 < 2 ^ 52 := by
    revert c
    decide
  refine ⟨withOperand _, bin 11 c.1, bin 52 c.2, bitText_digits _ (by simp), by simp, by simp, ?_, ?_⟩
  · rw [← unsigned_eq_uValue, unsigned_bin hb.1]
  · rw [← unsigned_eq_uValue, unsigned_bin hb.2]

set_option exponentiation.threshold 1100 in
/-- FencFiniteRange: a value of each layout on either side of its conditions, and one of F32 whose exponent field is 0
(1/10^38 lies from 2^-127 * (1 + 2^-23) up to 2^-126). -/
theorem witness_FencFiniteRange :
    (DecText (withOperand hugeText).operand false (2 * 10 ^ 308) ∧ (2 : ℚ) ^ ((2 ^ 11 - 1 : ℤ) - 1023) ≤ 2 * 10 ^ 308) ∧
    (DecText (withOperand tinyText).operand false (58774720 / 10 ^ 46) ∧
      (58774720 / 10 ^ 46 : ℚ) < (2 : ℚ) ^ (-127 : ℤ) * (1 + 1 / 2 ^ 23)) ∧
    (∃ a : ℚ, DecText (withOperand ([0x30#8] ++ 0x2E#8 :: (List.replicate 37 0x30#8 ++ ascii "1"))).operand false a ∧ 0 < a ∧
      (2 : ℚ) ^ (-127 : ℤ) * (1 + 1 / 2 ^ 23) ≤ a ∧ a < (2 : ℚ) ^ (1 - 127 : ℤ)) := by
  refine ⟨⟨hugeText_spec, by norm_num⟩, ⟨tinyText_spec, by norm_num⟩, 1 / 10 ^ 38, ?_, by norm_num, by norm_num, by norm_num⟩
  exact decText_point (i := 0) (f := 1) (d := 38) (by decide) (by decide) (by decide) (by norm_num)

/-- FirstSetBitWindowGivesExponentAndMantissa: 1/10 in the window of F32. -/
theorem witness_FirstSetBitWindow : 0 < 1 ∧ 0 < 10 ∧ 23 + Nat.log2 10 + 1 ≤ 27 := by decide

/-- HandOffGivesTheDecodedValue: fields of both layouts, with E on either side of 0 and next to M. -/
theorem witness_HandOffGivesTheDecodedValue :
    (bin 8 255).length = 8 ∧ (bin 23 1).length = 23 ∧ (bin 11 2047).length = 11 ∧ (bin 52 1).length = 52 ∧
    (∀ e ∈ [(-127 : ℤ), -1, 0, 22], e < (23 : Nat)) ∧ (∀ e ∈ [(-1023 : ℤ), -1, 0, 51], e < (52 : Nat)) := by
  decide

/-- IeeeEncodeThenDecode: an encoder that succeeds for an operand of each kind. -/
theorem witness_IeeeEncodeThenDecode :
    (∀ t ∈ [ascii "2.5", ascii "-0", ascii "inf", ascii "-NaN"],
      (∃ r, exec (.f32enc (1 + 8 + 23) 0 0) (withOperand t) = .next { withOperand t with rsp := r } ∧ r.rspStatus = 0) ∧
      (∃ r, exec (.f64enc (1 + 11 + 52) 0 0) (withOperand t) = .next { withOperand t with rsp := r } ∧ r.rspStatus = 0)) ∧
    (DecText (ascii "2.5") false (5 / 2) ∧ (2 : ℚ) ^ (1 : ℤ) ≤ 5 / 2 ∧ (5 / 2 : ℚ) < 2 ^ ((1 : ℤ) + 1)) ∧
    DecText (ascii "-0") true 0 ∧ InfText (ascii "inf") false ∧ NanText (ascii "-NaN") true := by
  refine ⟨?_, ⟨decText_five_halves, by norm_num, by norm_num⟩, decText_minus_zero, infText_inf, nanText_minus⟩
  intro t ht
  refine ⟨⟨_, rfl, ?_⟩, ⟨_, rfl, ?_⟩⟩
  all_goals
    revert t
    decide

end Sys2Proof.Tests
end

/-! ## Proofs of the scope family: bit strings and the capacity of the operand port (00_scope.md) -/

section
namespace Sys2Proof.Machine

open Sys2Proof.Safety

/-- A string has length n and a value v that fits n digits exactly when it is `bin n v` (rule R17). -/
theorem length_and_unsigned_iff_eq_bin {n v : Nat} (hv : v < 2 ^ n) (bs : BitString) :
    (bs.length = n ∧ unsigned bs = v) ↔ bs = bin n v := by
  constructor
  · rintro ⟨rfl, rfl⟩
    exact (bin_unsigned bs).symm
  · rintro rfl
    exact ⟨length_bin n v, unsigned_bin hv⟩

/-- OPERAND_CAPACITY lies an open amount above its least value 70 (rule R15). -/
theorem seventy_le_operandCapacity : 70 ≤ Config.operandCapacity := Nat.le_add_left 70 _

/-- Settles O24: the model's recursion for U is the sum of rule R16, and `bin` is the inverse of U on the strings of
one length. -/
theorem binIsTheUniqueStringOfItsValue : Obligations.BinIsTheUniqueStringOfItsValue := by
  refine ⟨unsigned_eq_uValue, fun n v bs hv => ?_⟩
  rw [← unsigned_eq_uValue]
  exact length_and_unsigned_iff_eq_bin hv bs

/-- Settles O11: an operand of at most 70 octets is within the capacity, and the step of an admitted request ends with the
response to its command word, of which RSP_VALID is 1. -/
theorem operandsOfSeventyOctetsAreAdmitted : Obligations.OperandsOfSeventyOctetsAreAdmitted := by
  refine ⟨seventy_le_operandCapacity, fun s cmd operand rest hp hlen => ?_⟩
  have hfit : operand.length ≤ Config.operandCapacity := hlen.trans seventy_le_operandCapacity
  exact ⟨_, step_of_issue hp hfit, Rsp.ofReply_rspValid _⟩

end Sys2Proof.Machine
end

/-! ## Proofs of the state family: the step, what an instruction writes, and the legal contents of RSP (10_state.md) -/

section
namespace Sys2Proof

/-- A number that fits a field of the command word is read back from it (30_encoding.md rules R61, R65). -/
theorem toNat_ofNat_of_fitsField {n : Nat} (h : fitsField n = true) : (BitVec.ofNat 7 n).toNat = n :=
  Nat.mod_eq_of_lt (of_decide_eq_true h)

theorem Instr.toNat_ofNat_opc (i : Instr) : (BitVec.ofNat 4 i.opc).toNat = i.opc :=
  Nat.mod_eq_of_lt (i.opc_lt.trans (by decide))

/-- The decoder reads every field of a well-formed instruction's command word back (rules R61, R62). -/
theorem decode_encode_of_wellFormed {i : Instr} (h : i.WellFormed) : decode (encode i) = .ok i := by
  obtain ⟨⟨hw, hk⟩, hj⟩ : (fitsField i.w = true ∧ fitsField i.k = true) ∧ fitsField i.j = true := by
    simpa [Instr.WellFormed, Instr.wellFormed] using h
  obtain ⟨eopc, ew, ek, ej, ersv⟩ := fields_encode i
  have hrsv : ¬ rsvField (encode i) ≠ 0 := not_not.2 ersv
  simp only [decode, hrsv, if_false, eopc, ew, ek, ej, i.toNat_ofNat_opc, toNat_ofNat_of_fitsField hw,
    toNat_ofNat_of_fitsField hk, toNat_ofNat_of_fitsField hj, instrOfOpcode_opc]

namespace Machine

open Sys2Proof.Safety

/-! ### What RSP holds after a reply -/

/-- A reply without a result leaves its code and no result (10_state.md rule R28). -/
theorem isError_ofReply {r : Reply} (h : r.result = .none) : IsError r.status.code.toNat (Rsp.ofReply r) := by
  obtain ⟨e, res⟩ := r
  subst h
  exact isError_raise e

/-- The canonical exponent of a NUM within the bounds of rule R72 is within -1075 and 1023. -/
theorem canon_exp_range {neg : Bool} {q : Mag} (h : ResultFits (.num neg q)) :
    -1075 ≤ q.canon.exp ∧ q.canon.exp ≤ 1023 := by
  obtain ⟨-, hlow, hhigh, -⟩ := h
  by_cases h0 : q.sig = 0
  · simp [Mag.canon_zero h0]
  · obtain ⟨hge, hle⟩ := Mag.canon_exp_bounds h0
    omega

/-- Such an exponent is read back from the 16 bits of RES_EXP (rules R22, R75). -/
theorem toInt_ofInt_of_exp_range {e : Int} (h : -1075 ≤ e ∧ e ≤ 1023) : (BitVec.ofInt 16 e).toInt = e := by
  rw [BitVec.toInt_ofInt]
  apply Int.bmod_eq_of_le <;> omega

/-! ### Which of these contents are legal

In each case one clause of `RspLegal` speaks of the kind of result that RSP holds; the others are about other tags. -/

theorem rspLegal_reset : RspLegal Rsp.reset := by constructor <;> decide

theorem rspLegal_of_isError {code : Nat} {r : Rsp} (h : IsError code r) (hpos : 0 < code) (hle : code ≤ 7) :
    RspLegal r := by
  obtain ⟨hv, hs, ht, hn, hl, hsig, he⟩ := h
  have hs0 : r.rspStatus ≠ 0 := by
    intro h0
    rw [h0] at hs
    exact hpos.ne hs
  constructor
  case status_named => omega
  case none_fields => exact fun _ => ⟨hn, hl, hsig, he⟩
  case ok_with_result => exact fun _ h0 => absurd h0 hs0
  all_goals simp [hv, ht]

theorem rspLegal_of_isBits {len sig : Nat} {r : Rsp} (h : IsBits len sig r) (hpos : 1 ≤ len) (hle : len ≤ 64)
    (hlt : sig < 2 ^ len) : RspLegal r := by
  obtain ⟨hv, hs, ht, hn, rfl, rfl, he⟩ := h
  constructor
  case bits_fields => exact fun _ => ⟨hn, hpos, hle, hlt, he⟩
  all_goals simp [hv, hs, ht]

theorem rspLegal_of_isNum {neg : Bool} {q : ℚ} {r : Rsp} (h : IsNum neg q r) (hlow : -1075 ≤ r.resExp.toInt)
    (hhigh : r.resExp.toInt ≤ 1023) : RspLegal r := by
  obtain ⟨hv, hs, ht, -, hl, hq, hzero, hodd⟩ := h
  have hq0 : q = 0 ↔ r.resSig = 0 := by
    rw [← hq, mul_eq_zero, or_iff_left (by positivity), Nat.cast_eq_zero, BitVec.toNat_eq]
    rfl
  constructor
  case num_fields =>
    exact fun _ => ⟨hl, fun h0 => (hzero (hq0.2 h0)).2, fun h0 => hodd (mt hq0.1 h0), hlow, hhigh⟩
  all_goals simp [hv, hs, ht]

theorem rspLegal_of_isInf {neg : Bool} {r : Rsp} (h : IsInf neg r) : RspLegal r := by
  obtain ⟨hv, hs, ht, -, hl, hsig, he⟩ := h
  constructor
  case inf_fields => exact fun _ => ⟨hl, hsig, he⟩
  all_goals simp [hv, hs, ht]

theorem rspLegal_of_isNan {r : Rsp} (h : IsNan r) : RspLegal r := by
  obtain ⟨hv, hs, ht, hn, hl, hsig, he⟩ := h
  constructor
  case nan_fields => exact fun _ => ⟨hn, hl, hsig, he⟩
  all_goals simp [hv, hs, ht]

/-- The codes of the errors are 1 to 7 (30_encoding.md rule R74). -/
theorem Status.code_range_of_ne_ok {e : Status} (h : e ≠ .ok) : 0 < e.code.toNat ∧ e.code.toNat ≤ 7 := by
  cases e
  case ok => exact absurd rfl h
  all_goals decide

/-- OK with a result that fits leaves RSP legal, one kind of result at a time. -/
theorem rspLegal_done {res : Result} (h : ResultFits res) : RspLegal (Rsp.ofReply (.done res)) := by
  cases res with
  | none => exact h.elim
  | bits bs => exact rspLegal_of_isBits (isBits_done h.2) h.1 h.2 (unsigned_lt bs)
  | num neg q =>
    have hexp : (Rsp.ofReply (.done (.num neg q))).resExp.toInt = q.canon.exp :=
      toInt_ofInt_of_exp_range (canon_exp_range h)
    obtain ⟨hlow, hhigh⟩ := canon_exp_range h
    exact rspLegal_of_isNum (isNum_done h) (hexp ▸ hlow) (hexp ▸ hhigh)
  | inf neg => exact rspLegal_of_isInf (isInf_done neg)
  | nan => exact rspLegal_of_isNan isNan_done

/-- Every reply that the block can give leaves RSP legal. -/
theorem rspLegal_ofReply {r : Reply} (h : ReplyFits r) : RspLegal (Rsp.ofReply r) := by
  obtain ⟨e, res⟩ := r
  rcases h with ⟨herr, hnone⟩ | ⟨hok, hfits⟩
  · obtain ⟨hpos, hle⟩ := Status.code_range_of_ne_ok herr
    exact rspLegal_of_isError (isError_ofReply hnone) hpos hle
  · subst hok
    exact rspLegal_done hfits

/-! ### The statements -/

/-- Settles O20: an idle step keeps RSP, reset and power cycle leave the reset values, and an issue leaves the response to
its command word, which fits RSP whatever the word and the operand are. -/
theorem everyStepKeepsRspLegal : Obligations.EveryStepKeepsRspLegal := by
  intro s t hinv hstep
  obtain ⟨-, rfl⟩ | ⟨a, rest, -, -, rfl⟩ | ⟨cmd, operand, rest, -, -, rfl⟩ := step_cases hstep
  · exact hinv
  · exact rspLegal_reset
  · exact rspLegal_ofReply (responseOf_fits cmd operand)

/-- Settles O21: a reply that fits has no result unless its status is OK, whose code is 0. -/
theorem failedOperationLeavesNoResult : Obligations.FailedOperationLeavesNoResult := by
  intro i s t hexec hfail
  obtain rfl := exec_next hexec
  rcases replyOf_fits i s.operand with ⟨-, hnone⟩ | ⟨hok, -⟩
  · exact isError_ofReply hnone
  · exact absurd ((Status.code_eq_zero _).2 hok) hfail

/-- Settles O9: the command word decodes to its instruction, so the response of the step is the instruction's reply to the
operand on the port. -/
theorem stepRunsTheDecodedInstruction : Obligations.StepRunsTheDecodedInstruction := by
  intro s i operand rest hwf hp hfit
  have hop : s.operand = operand := State.operand_of_pending hp
  have hresp : responseOf (encode i) operand = replyOf i operand := by
    simp only [responseOf, decode_encode_of_wellFormed hwf]
  refine ⟨hop, ?_⟩
  rw [step_of_issue hp hfit, hresp, exec_eq_finish, hop, State.finish_eq]

/-- Settles O12: the reset state holds `Rsp.reset`, every field of which is 0. -/
theorem resetStateHoldsResetValues : Obligations.ResetStateHoldsResetValues :=
  ⟨rfl, rfl, rfl, rfl, rfl, rfl, rfl⟩

/-- Settles O15: exec finishes with the instruction's reply, and `finish` writes RSP alone. -/
theorem everyInstructionWritesOnlyRsp : Obligations.EveryInstructionWritesOnlyRsp :=
  fun i s => ⟨_, exec_eq_finish i s, Rsp.ofReply_rspValid _⟩

/-- Settles O16: the reply is a function of the instruction and the operand on the port. -/
theorem responseIgnoresThePreviousResponse : Obligations.ResponseIgnoresThePreviousResponse := by
  intro i s t hop
  refine ⟨Rsp.ofReply (replyOf i s.operand), exec_eq_finish i s, ?_⟩
  rw [exec_eq_finish, hop, State.finish_eq]

/-- Settles O19: the reset state holds `Rsp.reset`, which is legal. -/
theorem legalRspAtReset : Obligations.LegalRspAtReset := rspLegal_reset

end Machine
end Sys2Proof
end

/-! ## Proofs of the memory family: what RSP holds after one admitted action and after a list of them (20_memory.md) -/

section
namespace Sys2Proof.Machine

open Sys2Proof.Safety

/-- What an admitted action leaves in RSP: the response to a request (20_memory.md rule R43), the reset values after reset
or a power cycle (rules R240, R217). No earlier content of RSP enters it. -/
def HostAction.response : HostAction → Rsp
  | .issue cmd operand => Rsp.ofReply (responseOf cmd operand)
  | .reset => Rsp.reset
  | .powerCycle => Rsp.reset

/-- The step of an admitted action completes and leaves that action's response. -/
theorem step_of_admitted {s : State} {a : HostAction} {rest : List HostAction} (hp : s.pending = a :: rest)
    (ha : Admitted a) : step s = .next { rsp := a.response, pending := rest } := by
  cases a with
  | issue cmd operand => exact step_of_issue hp ha
  | reset => exact step_of_reset hp
  | powerCycle => exact step_of_powerCycle hp

/-- A request whose step completes was admitted: an overlong operand is refused (60_exceptions.md rule R206). -/
theorem admitted_of_step_issue {s t : State} {cmd : CmdWord} {operand : Text} {rest : List HostAction}
    (hp : s.pending = .issue cmd operand :: rest) (hstep : step s = .next t) : Admitted (.issue cmd operand) := by
  by_contra hlong
  rw [step_of_overlong hp (not_le.1 hlong)] at hstep
  cases hstep

/-- A run whose first step completes goes on from the state which that step leaves. -/
theorem core_run_succ_of_next {s t : State} (n : Nat) (h : step s = .next t) :
    Host.Core.run core (n + 1) s = Host.Core.run core n t := by
  rw [core_run_succ, h]

/-- A run through admitted actions completes with the response of the last one: each step leaves the rest of the list, and
the last step overwrites RSP. -/
theorem core_run_of_admitted {s : State} {before : List HostAction} {last : HostAction}
    (hbefore : ∀ a ∈ before, Admitted a) (hlast : Admitted last) (hp : s.pending = before ++ [last]) :
    Host.Core.run core (before.length + 1) s = .next { rsp := last.response, pending := [] } := by
  induction before generalizing s with
  | nil => exact core_run_succ_of_next 0 (step_of_admitted hp hlast)
  | cons a before ih =>
    obtain ⟨ha, hrest⟩ := List.forall_mem_cons.1 hbefore
    exact (core_run_succ_of_next _ (step_of_admitted hp ha)).trans (ih hrest rfl)

/-- Settles O18: the run ends with the last action's response, and so does that action's step alone from reset. -/
theorem rspHoldsTheLastResponse : Obligations.RspHoldsTheLastResponse := by
  intro s before last hbefore hlast hp
  exact ⟨_, _, core_run_of_admitted hbefore hlast hp, step_of_admitted rfl hlast, rfl⟩

/-- Settles O17: the first step completes, so the request is admitted, and both steps leave its response. -/
theorem issuingTwiceLeavesTheSameRsp : Obligations.IssuingTwiceLeavesTheSameRsp := by
  intro s t cmd operand rest hp hstep
  have hadm : Admitted (.issue cmd operand) := admitted_of_step_issue hp hstep
  rw [step_of_admitted hp hadm] at hstep
  obtain rfl := Host.Outcome.next.inj hstep
  exact step_of_admitted rfl hadm

end Sys2Proof.Machine
end

/-! ## Proofs of the encoding family: the command word (30_encoding.md) -/

section
namespace Sys2Proof

/-! ### The fields of a command word -/

/-- A command word is its five fields side by side (30_encoding.md rule R61). -/
theorem append_fields (cmd : CmdWord) :
    rsvField cmd ++ jField cmd ++ kField cmd ++ wField cmd ++ opcField cmd = cmd := by
  simp only [rsvField, jField, kField, wField, opcField,
    BitVec.extractLsb'_append_extractLsb'_eq_extractLsb' (show 25 = 18 + 7 from rfl),
    BitVec.extractLsb'_append_extractLsb'_eq_extractLsb' (show 18 = 11 + 7 from rfl),
    BitVec.extractLsb'_append_extractLsb'_eq_extractLsb' (show 11 = 4 + 7 from rfl),
    BitVec.extractLsb'_append_extractLsb'_eq_extractLsb' (show 4 = 0 + 4 from rfl)]
  exact BitVec.extractLsb'_eq_self

theorem toNat_opcField (cmd : CmdWord) : (opcField cmd).toNat = cmd.toNat % 16 := by simp [opcField]

theorem toNat_rsvField (cmd : CmdWord) : (rsvField cmd).toNat = cmd.toNat / 2 ^ 25 := by
  have := cmd.isLt
  simp only [rsvField, BitVec.extractLsb'_toNat, Nat.shiftRight_eq_div_pow]
  omega

/-- The mask of rule R70 keeps the fields RSV and OPC. -/
theorem rsvField_and_opcodeMask (cmd : CmdWord) : rsvField (cmd &&& opcodeMask) = rsvField cmd := by
  rw [rsvField, BitVec.extractLsb'_and]
  exact BitVec.and_allOnes

theorem opcField_and_opcodeMask (cmd : CmdWord) : opcField (cmd &&& opcodeMask) = opcField cmd := by
  rw [opcField, BitVec.extractLsb'_and]
  exact BitVec.and_allOnes

/-- The mask of rule R70 clears W, K and J. -/
theorem and_opcodeMask (cmd : CmdWord) :
    cmd &&& opcodeMask = rsvField cmd ++ 0#7 ++ 0#7 ++ 0#7 ++ opcField cmd := by
  have hclear : ∀ start, opcodeMask.extractLsb' start 7 = 0#7 → (cmd &&& opcodeMask).extractLsb' start 7 = 0#7 := by
    intro start h
    rw [BitVec.extractLsb'_and, h, BitVec.and_zero]
  have hw : wField (cmd &&& opcodeMask) = 0#7 := hclear 4 rfl
  have hk : kField (cmd &&& opcodeMask) = 0#7 := hclear 11 rfl
  have hj : jField (cmd &&& opcodeMask) = 0#7 := hclear 18 rfl
  rw [← append_fields (cmd &&& opcodeMask), rsvField_and_opcodeMask, opcField_and_opcodeMask, hw, hk, hj]

/-! ### Which words decode -/

theorem Instr.wellFormed_iff (i : Instr) : i.WellFormed ↔ i.w < 2 ^ 7 ∧ i.k < 2 ^ 7 ∧ i.j < 2 ^ 7 := by
  simp only [Instr.WellFormed, Instr.wellFormed, fitsField, Bool.and_eq_true, decide_eq_true_eq, and_assoc]

theorem wellFormed_of_decode {cmd : CmdWord} {i : Instr} (h : decode cmd = .ok i) : i.WellFormed := by
  obtain ⟨-, -, hw, hk, hj⟩ := decode_eq_ok h
  rw [Instr.wellFormed_iff, ← hw, ← hk, ← hj]
  exact ⟨(wField cmd).isLt, (kField cmd).isLt, (jField cmd).isLt⟩

theorem encode_of_decode {cmd : CmdWord} {i : Instr} (h : decode cmd = .ok i) : encode i = cmd := by
  obtain ⟨hrsv, hopc, hw, hk, hj⟩ := decode_eq_ok h
  rw [encode, ← hopc, ← hw, ← hk, ← hj]
  simp only [BitVec.ofNat_toNat, BitVec.setWidth_eq]
  rw [← hrsv, append_fields]

/-- The operation codes of the case list of rule R62 are those below 0xE. -/
theorem exists_instrOfOpcode_iff (opc w k j : Nat) : (∃ i, instrOfOpcode opc w k j = some i) ↔ opc < 14 := by
  constructor
  · rintro ⟨i, h⟩
    by_contra hge
    obtain ⟨m, rfl⟩ := Nat.exists_eq_add_of_le' (not_lt.1 hge)
    cases h
  · intro h
    interval_cases opc <;> exact ⟨_, rfl⟩

/-- A word decodes exactly when rule R68 does not call it illegal. -/
theorem exists_decode_iff (cmd : CmdWord) :
    (∃ i, decode cmd = .ok i) ↔ rsvField cmd = 0#7 ∧ (opcField cmd).toNat < 14 := by
  constructor
  · rintro ⟨i, h⟩
    obtain ⟨hrsv, hopc, -⟩ := decode_eq_ok h
    exact ⟨hrsv, hopc ▸ i.opc_lt⟩
  · rintro ⟨hrsv, hopc⟩
    obtain ⟨i, hi⟩ := (exists_instrOfOpcode_iff _ (wField cmd).toNat (kField cmd).toNat (jField cmd).toNat).2 hopc
    exact ⟨i, by simp [decode, hrsv, hi]⟩

/-- The same on the number that the word is. -/
theorem exists_decode_iff_not_illegal (cmd : CmdWord) :
    (∃ i, decode cmd = .ok i) ↔ ¬(cmd.toNat / 2 ^ 25 ≠ 0 ∨ 14 ≤ cmd.toNat % 16) := by
  have hrsv : rsvField cmd = 0#7 ↔ cmd.toNat / 2 ^ 25 = 0 := by rw [BitVec.toNat_eq, toNat_rsvField]; rfl
  rw [exists_decode_iff, hrsv, toNat_opcField, not_or, not_not, not_le]

/-- An illegal word is refused by the decoder. -/
theorem decode_error_of_illegal {cmd : CmdWord} (h : cmd.toNat / 2 ^ 25 ≠ 0 ∨ 14 ≤ cmd.toNat % 16) :
    ∃ e, decode cmd = .error e := by
  cases hd : decode cmd with
  | error e => exact ⟨e, rfl⟩
  | ok i => exact absurd h ((exists_decode_iff_not_illegal cmd).1 ⟨i, hd⟩)

/-! ### The opcode table and the structure of OPC -/

/-- Under the mask of rule R70 a word that decodes is its operation code. -/
theorem and_opcodeMask_of_decode {cmd : CmdWord} {i : Instr} (h : decode cmd = .ok i) :
    cmd &&& opcodeMask = 0#7 ++ 0#7 ++ 0#7 ++ 0#7 ++ BitVec.ofNat 4 i.opc := by
  obtain ⟨hrsv, hopc, -⟩ := decode_eq_ok h
  rw [and_opcodeMask, hrsv, ← hopc, BitVec.ofNat_toNat, BitVec.setWidth_eq]

/-- One row of the opcode table holds the operation code of an instruction: its own (rule R70). -/
theorem filter_opcodeTable_opc (i : Instr) :
    (opcodeTable.filter (fun row => 0#7 ++ 0#7 ++ 0#7 ++ 0#7 ++ BitVec.ofNat 4 i.opc == row.matchWord)).map
      OpcodeRow.mnemonic = [i.mnemonic] := by
  cases i <;> simp [opcodeTable, Instr.opc, Instr.mnemonic]

/-- A word that selects a row of the opcode table decodes: RSV is 0 and OPC below 0xE in every row. -/
theorem exists_decode_of_selects {cmd : CmdWord} {row : OpcodeRow} (hrow : row ∈ opcodeTable)
    (h : row.selects cmd = true) : ∃ i, decode cmd = .ok i := by
  have htable : ∀ row ∈ opcodeTable, rsvField row.matchWord = 0#7 ∧ (opcField row.matchWord).toNat < 14 := by decide
  have hmatch : cmd &&& opcodeMask = row.matchWord := eq_of_beq h
  have := htable row hrow
  rwa [← hmatch, rsvField_and_opcodeMask, opcField_and_opcodeMask, ← exists_decode_iff] at this

/-- The case list of rule R62 is the structure of rule R63: OPC[3:1] names the representation, OPC[0] the direction. -/
theorem instrOfOpcode_eq_instrOfUnit (opc : BitVec 4) (w k j : Nat) :
    instrOfOpcode opc.toNat w k j =
      (representationOf (opc.extractLsb' 1 3)).map (fun r => instrOfUnit r (directionOf (opc.extractLsb' 0 1)) w k j) := by
  obtain ⟨n, hn, rfl⟩ : ∃ n < 16, opc = BitVec.ofNat 4 n := ⟨opc.toNat, opc.isLt, by simp⟩
  interval_cases n <;> rfl

/-- OPC[3:1] and OPC[0] are bits of CMD. -/
theorem extractLsb'_opcField (cmd : CmdWord) :
    (opcField cmd).extractLsb' 1 3 = cmd.extractLsb' 1 3 ∧ (opcField cmd).extractLsb' 0 1 = cmd.extractLsb' 0 1 := by
  constructor <;> simp [opcField, BitVec.extractLsb'_extractLsb'_of_le]

/-! ### The statements -/

/-- Settles O1: every field of a well-formed instruction's command word reads back. -/
theorem decodeEncodeRoundTrip : Obligations.DecodeEncodeRoundTrip :=
  fun _ hwf => decode_encode_of_wellFormed hwf

/-- Settles O2: the decoder copies the five fields of the word into the instruction, and the word is these fields side by
side. -/
theorem encodeDecodeRoundTrip : Obligations.EncodeDecodeRoundTrip :=
  fun _ _ h => ⟨wellFormed_of_decode h, encode_of_decode h⟩

/-- Settles O3: sixteen closed words, by evaluation. -/
theorem sampleCommandWordsDecode : Obligations.SampleCommandWordsDecode := by
  unfold Obligations.SampleCommandWordsDecode
  decide

/-- Settles O4: under the mask a legal word is its operation code, which one row holds, and an illegal word matches no
row. -/
theorem maskAndMatchSelectTheOperation : Obligations.MaskAndMatchSelectTheOperation := by
  intro cmd
  cases h : decode cmd with
  | ok i =>
    simp only [OpcodeRow.selects, and_opcodeMask_of_decode h]
    exact filter_opcodeTable_opc i
  | error e =>
    rw [List.map_eq_nil_iff, List.filter_eq_nil_iff]
    intro row hrow hsel
    obtain ⟨i, hi⟩ := exists_decode_of_selects hrow hsel
    rw [h] at hi
    cases hi

/-- Settles O5: both decoders check RSV first, and the case list is the structure of OPC. -/
theorem structuralDecoderAgrees : Obligations.StructuralDecoderAgrees := by
  intro cmd
  obtain ⟨hrep, hdir⟩ := extractLsb'_opcField cmd
  rw [decode, decodeByStructure, instrOfOpcode_eq_instrOfUnit, hrep, hdir]
  cases representationOf (cmd.extractLsb' 1 3) <;> rfl

/-- Settles O6: the encodings of well-formed instructions are the words that decode. -/
theorem everyWordIsAnOperationOrIllegal : Obligations.EveryWordIsAnOperationOrIllegal := by
  intro cmd
  rw [← exists_decode_iff_not_illegal]
  constructor
  · rintro ⟨i, hwf, rfl⟩
    exact ⟨i, decode_encode_of_wellFormed hwf⟩
  · rintro ⟨i, h⟩
    exact ⟨i, wellFormed_of_decode h, encode_of_decode h⟩

end Sys2Proof

namespace Sys2Proof.Machine

/-! ### The assembled word -/

/-- A field shifted to its place in the command word loses no bit. -/
theorem toNat_ofNat_shiftLeft {n a b : Nat} (h : n < 2 ^ a) (hab : a + b ≤ 32) :
    (BitVec.ofNat 32 n <<< b).toNat = n <<< b := by
  have hn : n < 2 ^ 32 := h.trans_le (Nat.pow_le_pow_right (by decide) (by omega))
  have hshift : n <<< b < 2 ^ 32 := (Nat.shiftLeft_lt h).trans_le (Nat.pow_le_pow_right (by decide) hab)
  rw [BitVec.toNat_shiftLeft, BitVec.toNat_ofNat, Nat.mod_eq_of_lt hn, Nat.mod_eq_of_lt hshift]

/-- For fields that fit their places, the disjunction of the shifted fields (rule R86) sets them side by side (rule R61). -/
theorem assembledWord_eq_append {opc w k j : Nat} (ho : opc < 2 ^ 4) (hw : w < 2 ^ 7) (hk : k < 2 ^ 7)
    (hj : j < 2 ^ 7) :
    assembledWord (BitVec.ofNat 32 opc) w k j =
      0#7 ++ BitVec.ofNat 7 j ++ BitVec.ofNat 7 k ++ BitVec.ofNat 7 w ++ BitVec.ofNat 4 opc := by
  have hopc : (BitVec.ofNat 32 opc).toNat = opc := Nat.mod_eq_of_lt (by omega)
  apply BitVec.eq_of_toNat_eq
  simp only [assembledWord, BitVec.toNat_or, hopc, toNat_ofNat_shiftLeft hw (show 7 + 4 ≤ 32 by decide),
    toNat_ofNat_shiftLeft hk (show 7 + 11 ≤ 32 by decide), toNat_ofNat_shiftLeft hj (show 7 + 18 ≤ 32 by decide),
    BitVec.toNat_append, BitVec.toNat_ofNat, Nat.mod_eq_of_lt hw, Nat.mod_eq_of_lt hk, Nat.mod_eq_of_lt hj,
    Nat.mod_eq_of_lt ho, Nat.shiftLeft_or_distrib, ← Nat.shiftLeft_add, Nat.zero_mod, Nat.zero_shiftLeft, Nat.zero_or]
  rw [Nat.or_comm _ (j <<< 18), Nat.or_comm _ (k <<< 11), Nat.or_comm opc]
  simp only [Nat.or_assoc]

/-- An illegal word is answered with IllegalOperation, whatever the operand (rule R68). -/
theorem responseOf_illegal {cmd : CmdWord} (h : cmd.toNat / 2 ^ 25 ≠ 0 ∨ 14 ≤ cmd.toNat % 16) (operand : Text) :
    responseOf cmd operand = .raise .illegalOperation := by
  obtain ⟨e, he⟩ := decode_error_of_illegal h
  rw [responseOf, he]

/-- Settles O7: the step of an admitted request leaves the response to its word. -/
theorem illegalWordsAnswerIllegalOperation : Obligations.IllegalWordsAnswerIllegalOperation := by
  intro s cmd operand rest hp hfit hillegal
  refine ⟨_, step_of_issue hp hfit, ?_⟩
  rw [responseOf_illegal hillegal]
  exact isError_raise .illegalOperation

/-- Settles O8: each arm of exec passes on the fields its operation reads, and no others. -/
theorem ignoredFieldsHaveNoEffect : Obligations.IgnoredFieldsHaveNoEffect := by
  intro w k j s
  refine ⟨?_, ?_, ?_, ?_, ?_, ?_, ?_, ?_, ?_, ?_, ?_, ?_, ?_, ?_⟩ <;> rfl

/-- Settles O55: the fields of a well-formed instruction fit their places. -/
theorem assembledWordIsTheEncoding : Obligations.AssembledWordIsTheEncoding := by
  intro i hwf
  obtain ⟨hw, hk, hj⟩ := i.wellFormed_iff.1 hwf
  exact assembledWord_eq_append (i.opc_lt.trans (by decide)) hw hk hj

end Sys2Proof.Machine
end

/-! ## Proofs of the encoding family: the operand grammars, the texts of results and the assembler (30_encoding.md) -/

section
namespace Sys2Proof.Machine

open Sys2Proof.Safety

/-! ### Binary operands (rule R81) -/

/-- A text consists of `0` and `1` and reads as bs exactly when it is written out from bs. -/
theorem all_isBit_and_map_iff (t : Text) (bs : BitString) :
    (t.all isBit = true ∧ t.map (fun c => c == chOne) = bs) ↔ t = bs.map (fun b => if b then 0x31#8 else 0x30#8) := by
  constructor
  · rintro ⟨hall, rfl⟩
    rw [List.map_map, eq_comm]
    refine (List.map_congr_left fun c hc => ?_).trans (List.map_id t)
    obtain rfl | rfl : c = chZero ∨ c = chOne := by simpa [isBit] using List.all_eq_true.1 hall c hc
    all_goals rfl
  · rintro rfl
    constructor
    · rw [List.all_map, List.all_eq_true]
      rintro (_ | _) - <;> rfl
    · rw [List.map_map]
      refine (List.map_congr_left fun b _ => ?_).trans (List.map_id bs)
      cases b <;> rfl

theorem parseBits_eq_some (t : Text) (bs : BitString) :
    parseBits t = some bs ↔
      bs ≠ [] ∧ t.filter (fun c => !isSeparator c) = bs.map (fun b => if b then 0x31#8 else 0x30#8) := by
  rw [← all_isBit_and_map_iff]
  generalize hrest : t.filter (fun c => !isSeparator c) = rest
  simp only [parseBits, hrest]
  by_cases hall : rest.all isBit = true
  · by_cases hne : rest = []
    · simp [hne]
    · simp only [List.isEmpty_iff, hne, hall, Bool.not_true, Bool.or_false, if_false,
        Option.some.injEq, true_and]
      refine (and_iff_right_of_imp ?_).symm
      rintro rfl
      simpa using hne
  · simp [hall]

/-- Settles O25: the model's separators are those of rule R81, and its test accepts the texts written out from a digit
string. -/
theorem parseBitsFollowsItsGrammar : Obligations.ParseBitsFollowsItsGrammar := by
  intro operand bs
  have hsep : (fun c : Byte => !isSeparator c) = fun c => decide (c ≠ 0x20#8 ∧ c ≠ 0x2E#8 ∧ c ≠ 0x2D#8) := by
    funext c
    rw [Bool.eq_iff_iff]
    simp [isSeparator, chSpace, chPoint, chMinus, and_assoc]
  rw [parseBits_eq_some, hsep, BitText]

/-! ### Integers (rule R82) -/

/-- A text splits into a sign and a body that begins with no sign exactly when it is such a sign followed by the body. -/
theorem splitSign_eq_iff {t body : Text} {neg : Bool} (hbody : ∀ c ∈ body.head?, c ≠ chMinus ∧ c ≠ chPlus) :
    splitSign t = (neg, body) ↔ ∃ sg, t = sg ++ body ∧ SignText sg neg := by
  constructor
  · intro h
    simpa [h] using splitSign_spec t
  · rintro ⟨sg, rfl, hsg⟩
    exact splitSign_append hsg hbody

theorem parseInt_eq_some (t : Text) (neg : Bool) (n : Nat) :
    parseInt t = some (neg, n) ↔ ∃ ds, splitSign t = (neg, ds) ∧ parseDigits ds = some n := by
  rcases hs : splitSign t with ⟨b, ds⟩
  cases hd : parseDigits ds with
  | none => simp [parseInt, hs, hd]
  | some m => simp [parseInt, hs, hd]

/-- Settles O26: digits begin with no sign, so the sign that the parser splits off is the grammar's. -/
theorem parseIntFollowsItsGrammar : Obligations.ParseIntFollowsItsGrammar := by
  intro operand neg n
  rw [parseInt_eq_some]
  constructor
  · rintro ⟨ds, hs, hd⟩
    have hds := (parseDigits_eq_some ds n).1 hd
    obtain ⟨sg, ht, hsg⟩ := (splitSign_eq_iff (digitsText_head hds)).1 hs
    exact ⟨sg, ds, ht, hsg, hds⟩
  · rintro ⟨sg, ds, ht, hsg, hds⟩
    exact ⟨ds, (splitSign_eq_iff (digitsText_head hds)).2 ⟨sg, ht, hsg⟩, (parseDigits_eq_some ds n).2 hds⟩

/-! ### Decimals (rule R83) -/

/-- `digit+ ( '.' digit+ )?` with the magnitude num / 10^scale, scale the number of digits after the point. -/
def DecimalBody (body : Text) (num scale : Nat) : Prop :=
  (DigitsText body num ∧ scale = 0) ∨
    ∃ ids fds i f, body = ids ++ chPoint :: fds ∧ DigitsText ids i ∧ DigitsText fds f ∧
      num = i * 10 ^ fds.length + f ∧ scale = fds.length

/-- A digit string begins with a digit. -/
theorem exists_cons_of_digitsText {ds : Text} {n : Nat} (h : DigitsText ds n) :
    ∃ c t, ds = c :: t ∧ 0x30 ≤ c.toNat ∧ c.toNat ≤ 0x39 := by
  obtain ⟨hne, hall, -⟩ := h
  obtain ⟨c, t, rfl⟩ := List.exists_cons_of_ne_nil hne
  exact ⟨c, t, rfl, hall c List.mem_cons_self⟩

/-- A decimal without its sign begins with a digit. -/
theorem DecimalBody.exists_cons {body : Text} {num scale : Nat} (h : DecimalBody body num scale) :
    ∃ c t, body = c :: t ∧ 0x30 ≤ c.toNat ∧ c.toNat ≤ 0x39 := by
  rcases h with ⟨hds, -⟩ | ⟨ids, fds, i, f, rfl, hids, -⟩
  · exact exists_cons_of_digitsText hds
  · obtain ⟨c, t, rfl, hc⟩ := exists_cons_of_digitsText hids
    exact ⟨c, t ++ chPoint :: fds, rfl, hc⟩

theorem DecimalBody.head {body : Text} {num scale : Nat} (h : DecimalBody body num scale) :
    ∀ c ∈ body.head?, c ≠ chMinus ∧ c ≠ chPlus := by
  obtain ⟨c, t, rfl, hc⟩ := h.exists_cons
  obtain ⟨hminus, hplus, -⟩ := digit_not_special hc
  simpa using ⟨hminus, hplus⟩

/-- Digits hold no point. -/
theorem chPoint_notMem_digits {ds : Text} {n : Nat} (h : DigitsText ds n) : chPoint ∉ ds := by
  obtain ⟨-, hall, -⟩ := h
  intro hmem
  obtain ⟨-, -, hne⟩ := digit_not_special (hall _ hmem)
  exact hne rfl

theorem decimalBody_of_no_point {body : Text} (h : chPoint ∉ body) (num scale : Nat) :
    DecimalBody body num scale ↔ parseDigits body = some num ∧ scale = 0 := by
  rw [parseDigits_eq_some]
  refine ⟨fun hbody => hbody.resolve_right ?_, .inl⟩
  rintro ⟨ids, fds, i, f, rfl, -⟩
  simp at h

theorem decimalBody_of_point {ids : Text} (h : chPoint ∉ ids) (fds : Text) (num scale : Nat) :
    DecimalBody (ids ++ chPoint :: fds) num scale ↔
      ∃ i f, parseDigits ids = some i ∧ parseDigits fds = some f ∧ num = i * 10 ^ fds.length + f ∧
        scale = fds.length := by
  simp only [parseDigits_eq_some]
  constructor
  · rintro (⟨hds, -⟩ | ⟨ids', fds', i, f, hsplit, hids, hfds, hnum, hscale⟩)
    · exact absurd (by simp) (chPoint_notMem_digits hds)
    · have hfirst := (splitFirst_eq_some chPoint _ ids' fds').2 ⟨hsplit, chPoint_notMem_digits hids⟩
      rw [(splitFirst_eq_some chPoint _ ids fds).2 ⟨rfl, h⟩] at hfirst
      obtain ⟨rfl, rfl⟩ : ids = ids' ∧ fds = fds' := by simpa using hfirst
      exact ⟨i, f, hids, hfds, hnum, hscale⟩
  · rintro ⟨i, f, hids, hfds, hnum, hscale⟩
    exact .inr ⟨ids, fds, i, f, rfl, hids, hfds, hnum, hscale⟩

theorem parseDec_eq_some (t : Text) (d : Decimal) :
    parseDec t = some d ↔ ∃ body, splitSign t = (d.neg, body) ∧ DecimalBody body d.num d.scale := by
  obtain ⟨neg, num, scale⟩ := d
  rcases hs : splitSign t with ⟨b, body⟩
  rcases hp : splitFirst chPoint body with ⟨ids, _ | fds⟩
  · obtain ⟨hno, rfl⟩ := (splitFirst_eq_none chPoint body ids).1 hp
    cases hids : parseDigits ids with
    | none => simp [parseDec, hs, hp, hids, decimalBody_of_no_point hno]
    | some i => simp [parseDec, hs, hp, hids, decimalBody_of_no_point hno, eq_comm]
  · obtain ⟨rfl, hno⟩ := (splitFirst_eq_some chPoint body ids fds).1 hp
    cases hids : parseDigits ids with
    | none => simp [parseDec, hs, hp, hids, decimalBody_of_point hno]
    | some i =>
      cases hfds : parseDigits fds with
      | none => simp [parseDec, hs, hp, hids, hfds, decimalBody_of_point hno]
      | some f => simp [parseDec, hs, hp, hids, hfds, decimalBody_of_point hno, eq_comm]

/-- The decimal texts are those that the parser's parts make up: a sign and a decimal without its sign. -/
theorem decText_iff (t : Text) (neg : Bool) (a : ℚ) :
    DecText t neg a ↔
      ∃ body num scale, splitSign t = (neg, body) ∧ DecimalBody body num scale ∧ (num : ℚ) / 10 ^ scale = a := by
  constructor
  · rintro ⟨sg, ids, i, hsg, hids, ⟨rfl, rfl⟩ | ⟨fds, f, hfds, rfl, rfl⟩⟩
    · have hbody : DecimalBody ids i 0 := .inl ⟨hids, rfl⟩
      exact ⟨ids, i, 0, splitSign_append hsg hbody.head, hbody, by simp⟩
    · have hbody : DecimalBody (ids ++ chPoint :: fds) (i * 10 ^ fds.length + f) fds.length :=
        .inr ⟨ids, fds, i, f, rfl, hids, hfds, rfl, rfl⟩
      refine ⟨_, _, _, ?_, hbody, ?_⟩
      · rw [List.append_assoc]
        exact splitSign_append hsg hbody.head
      · push_cast
        field_simp
  · rintro ⟨body, num, scale, hs, hbody, rfl⟩
    obtain ⟨sg, rfl, hsg⟩ := (splitSign_eq_iff hbody.head).1 hs
    rcases hbody with ⟨hds, rfl⟩ | ⟨ids, fds, i, f, rfl, hids, hfds, rfl, rfl⟩
    · exact ⟨sg, body, num, hsg, hds, .inl ⟨rfl, by simp⟩⟩
    · refine ⟨sg, ids, i, hsg, hids, .inr ⟨fds, f, hfds, (List.append_assoc ..).symm, ?_⟩⟩
      push_cast
      field_simp

/-- Settles O27: the parser's parts are the grammar's, and (I * 10^d + F) / 10^d is I + F / 10^d. -/
theorem parseDecFollowsItsGrammar : Obligations.ParseDecFollowsItsGrammar := by
  intro operand neg a
  rw [decText_iff]
  constructor
  · rintro ⟨d, hd, rfl, ha⟩
    obtain ⟨body, hs, hbody⟩ := (parseDec_eq_some operand d).1 hd
    exact ⟨body, d.num, d.scale, hs, hbody, ha⟩
  · rintro ⟨body, num, scale, hs, hbody, ha⟩
    exact ⟨⟨neg, num, scale⟩, (parseDec_eq_some operand _).2 ⟨body, hs, hbody⟩, rfl, ha⟩

/-! ### Words of the float operand (rule R84) -/

/-- `a` to `z`. -/
def IsLowerLetter (l : Byte) : Prop := 0x61 ≤ l.toNat ∧ l.toNat ≤ 0x7A

/-- An octet becomes a given lower-case letter exactly when it is that letter in either case. -/
theorem lowerCase_eq_iff {c l : Byte} (hl : IsLowerLetter l) : lowerCase c = l ↔ c = l ∨ c = l - 0x20#8 := by
  obtain ⟨hlow, hhigh⟩ := hl
  unfold lowerCase
  split_ifs <;> bv_omega

/-- An octet below the letters stays as it is. -/
theorem lowerCase_of_lt {c : Byte} (h : c.toNat < 0x41) : lowerCase c = c := if_neg (by omega)

theorem map_lowerCase_eq_iff {word : Text} (hword : ∀ l ∈ word, IsLowerLetter l) (body : Text) :
    body.map lowerCase = word ↔ List.Forall₂ (fun c l => c = l ∨ c = l - 0x20#8) body word := by
  induction word generalizing body with
  | nil => simp
  | cons l word ih =>
    obtain ⟨hl, hword⟩ := List.forall_mem_cons.1 hword
    cases body with
    | nil => simp
    | cons c body => rw [List.map_cons, List.cons.injEq, List.forall₂_cons, lowerCase_eq_iff hl, ih hword]

/-- A text that becomes lower-case letters begins with no octet below the letters. -/
theorem head_of_map_lowerCase {word body : Text} (hword : ∀ l ∈ word, IsLowerLetter l) (h : body.map lowerCase = word) :
    ∀ c ∈ body.head?, 0x41 ≤ c.toNat := by
  intro c hc
  by_contra hlt
  have hmem : lowerCase c ∈ word := h ▸ List.mem_map_of_mem (List.mem_of_mem_head? hc)
  rw [lowerCase_of_lt (not_le.1 hlt)] at hmem
  have := (hword c hmem).1
  omega

theorem wordText_iff {word : Text} (hword : ∀ l ∈ word, IsLowerLetter l) (t : Text) (neg : Bool) :
    WordText t neg word ↔ ∃ body, splitSign t = (neg, body) ∧ body.map lowerCase = word := by
  have hsign : ∀ {body : Text}, body.map lowerCase = word → ∀ c ∈ body.head?, c ≠ chMinus ∧ c ≠ chPlus := by
    intro body h c hc
    have := head_of_map_lowerCase hword h c hc
    constructor <;> rintro rfl <;> simp [chMinus, chPlus] at this
  constructor
  · rintro ⟨sg, body, rfl, hsg, hbody⟩
    have hmap := (map_lowerCase_eq_iff hword body).2 hbody
    exact ⟨body, splitSign_append hsg (hsign hmap), hmap⟩
  · rintro ⟨body, hs, hmap⟩
    obtain ⟨sg, ht, hsg⟩ := (splitSign_eq_iff (hsign hmap)).1 hs
    exact ⟨sg, body, ht, hsg, (map_lowerCase_eq_iff hword body).1 hmap⟩

theorem letters_of_words : ∀ word ∈ [wordInf, wordInfinity, wordNan], ∀ l ∈ word, IsLowerLetter l := by
  unfold IsLowerLetter
  decide

theorem infText_iff (t : Text) (neg : Bool) :
    InfText t neg ↔
      ∃ body, splitSign t = (neg, body) ∧ (body.map lowerCase = wordInf ∨ body.map lowerCase = wordInfinity) := by
  have hinf := wordText_iff (letters_of_words wordInf (by simp)) t neg
  have hinfinity := wordText_iff (letters_of_words wordInfinity (by simp)) t neg
  simp only [and_or_left, exists_or, ← hinf, ← hinfinity]
  rfl

theorem nanText_iff (t : Text) (neg : Bool) :
    NanText t neg ↔ ∃ body, splitSign t = (neg, body) ∧ body.map lowerCase = wordNan :=
  wordText_iff (letters_of_words wordNan (by simp)) t neg

/-- A decimal is none of the words: it begins with a digit. -/
theorem DecimalBody.map_lowerCase_ne {body word : Text} {num scale : Nat} (h : DecimalBody body num scale)
    (hword : ∀ l ∈ word, IsLowerLetter l) : body.map lowerCase ≠ word := by
  intro hmap
  obtain ⟨c, t, rfl, -, hle⟩ := h.exists_cons
  have := head_of_map_lowerCase hword hmap c rfl
  omega

/-- What ParseFloat gives, case by case on the word behind the sign. -/
theorem parseFloat_of_splitSign {t body : Text} {neg : Bool} (hs : splitSign t = (neg, body)) :
    parseFloat t =
      if body.map lowerCase = wordInf ∨ body.map lowerCase = wordInfinity then some (.infv neg)
      else if body.map lowerCase = wordNan then some (.nanv neg)
      else (parseDec t).map .fin := by
  unfold parseFloat
  rw [hs]
  cases parseDec t <;> rfl

theorem parseFloat_eq_infv (t : Text) (neg : Bool) : parseFloat t = some (.infv neg) ↔ InfText t neg := by
  rcases hs : splitSign t with ⟨b, body⟩
  rw [parseFloat_of_splitSign hs, infText_iff, hs]
  split_ifs with hinf hnan <;> simp [hinf]

theorem parseFloat_eq_nanv (t : Text) (neg : Bool) : parseFloat t = some (.nanv neg) ↔ NanText t neg := by
  rcases hs : splitSign t with ⟨b, body⟩
  have hne : wordInf ≠ wordNan ∧ wordInfinity ≠ wordNan := by decide
  rw [parseFloat_of_splitSign hs, nanText_iff, hs]
  split_ifs with hinf hnan
  · rcases hinf with hinf | hinf <;> simp [hinf, hne]
  · simp [hnan]
  · simp [hnan]

theorem parseFloat_eq_fin (t : Text) (d : Decimal) : parseFloat t = some (.fin d) ↔ parseDec t = some d := by
  rcases hs : splitSign t with ⟨b, body⟩
  have hbody : parseDec t = some d → DecimalBody body d.num d.scale := by
    intro hd
    obtain ⟨body', hs', hbody⟩ := (parseDec_eq_some t d).1 hd
    rw [hs] at hs'
    obtain ⟨-, rfl⟩ := Prod.mk.inj hs'
    exact hbody
  have hnot : ∀ word ∈ [wordInf, wordInfinity, wordNan], body.map lowerCase = word → parseDec t ≠ some d :=
    fun word hmem hmap hd => (hbody hd).map_lowerCase_ne (letters_of_words word hmem) hmap
  rw [parseFloat_of_splitSign hs]
  split_ifs with hinf hnan
  · rcases hinf with hinf | hinf
    · simp [hnot _ (by simp) hinf]
    · simp [hnot _ (by simp) hinf]
  · simp [hnot _ (by simp) hnan]
  · simp

/-- Settles O28: the three results of ParseFloat are the three kinds of text, and the third is a decimal of rule R83. -/
theorem parseFloatFollowsItsGrammar : Obligations.ParseFloatFollowsItsGrammar := by
  intro operand neg a
  refine ⟨parseFloat_eq_infv operand neg, parseFloat_eq_nanv operand neg, ?_⟩
  simp only [parseFloat_eq_fin]
  exact parseDecFollowsItsGrammar operand neg a

/-! ### The canonical pair of a NUM result (rule R75) -/

/-- An odd number times a power of two determines both (rule R75). -/
theorem odd_mul_two_zpow_inj {m n : Nat} {a b : ℤ} (hm : m % 2 = 1) (hn : n % 2 = 1)
    (h : (m : ℚ) * 2 ^ a = n * 2 ^ b) : m = n ∧ a = b := by
  wlog hab : a ≤ b generalizing m n a b
  · obtain ⟨rfl, rfl⟩ := this hn hm h.symm (le_of_not_ge hab)
    exact ⟨rfl, rfl⟩
  obtain ⟨d, rfl⟩ := Int.le.dest hab
  have hmn : m = n * 2 ^ d := by
    rw [zpow_add₀ two_ne_zero, zpow_natCast, mul_left_comm, mul_comm] at h
    exact_mod_cast mul_left_cancel₀ (zpow_ne_zero a two_ne_zero) h
  cases d with
  | zero => simpa using hmn
  | succ d =>
    rw [pow_succ, ← mul_assoc] at hmn
    omega

/-- One sign tag gives one sign bit. -/
theorem signBit_unique {x y : BitVec 1} {neg : Bool} (hx : x = 1 ↔ neg = true) (hy : y = 1 ↔ neg = true) : x = y := by
  revert x y neg
  decide

/-- Settles O23: significand and exponent are 0 for the value 0, and else the significand is odd. -/
theorem canonicalPairIsUnique : Obligations.CanonicalPairIsUnique := by
  rintro ⟨valid, status, tag, negBit, len, sig, exp⟩ ⟨valid', status', tag', negBit', len', sig', exp'⟩ neg q
    ⟨rfl, rfl, rfl, hneg, rfl, hval, hzero, hodd⟩ ⟨rfl, rfl, rfl, hneg', rfl, hval', hzero', hodd'⟩
  have hpair : sig = sig' ∧ exp = exp' := by
    by_cases hq : q = 0
    · obtain ⟨rfl, rfl⟩ := hzero hq
      obtain ⟨rfl, rfl⟩ := hzero' hq
      exact ⟨rfl, rfl⟩
    · obtain ⟨hsig, hexp⟩ := odd_mul_two_zpow_inj (hodd hq) (hodd' hq) (hval.trans hval'.symm)
      exact ⟨BitVec.eq_of_toNat_eq hsig, BitVec.eq_of_toInt_eq hexp⟩
  obtain ⟨rfl, rfl⟩ := hpair
  obtain rfl : negBit = negBit' := signBit_unique hneg hneg'
  rfl

/-! ### Texts of results and the assembler's defaults (rules R87, R89) -/

/-- Settles O54: the host reads NUM(neg, sig * 2^exp) from RSP, and its text is a decimal of exactly this value. -/
theorem renderedNumbersReadBackExactly : Obligations.RenderedNumbersReadBackExactly := by
  intro r neg q h
  have hresult := result_of_isNum h
  obtain ⟨-, -, -, -, -, rfl, -⟩ := h
  refine ⟨_, congrArg render hresult, ?_⟩
  exact renderMag_spec neg _

/-- Every instruction has its row in the opcode table (rule R70). -/
theorem rowOf_mnemonic (i : Instr) : rowOf i.mnemonic = some ⟨i.mnemonic, BitVec.ofNat 32 i.opc⟩ := by
  cases i <;> rfl

theorem defaultWidth_le (mnemonic : String) : defaultWidth mnemonic ≤ 64 := by
  unfold defaultWidth
  split_ifs <;> decide

/-- A line without options assembles to the instruction with the default width and K = J = 0 (rules R86, R87). -/
theorem assemble_default (rsp : Rsp) (t : Text) {i : Instr} (hw : i.w = defaultWidth i.mnemonic) (hk : i.k = 0)
    (hj : i.j = 0) : assemble rsp (.op i.mnemonic none none none (.text t)) = .ok (.issue (encode i) t) := by
  have hle := defaultWidth_le i.mnemonic
  have hwf : i.WellFormed := i.wellFormed_iff.2 (by omega)
  have hword := assembledWordIsTheEncoding i hwf
  rw [Instr.WellFormed, Instr.wellFormed, hw, hk, hj] at hwf
  rw [hw, hk, hj] at hword
  simp [assemble, rowOf_mnemonic, operandText, hwf, hword]

/-- An instruction whose reply is an error answers with that error's code. -/
theorem answers_isError {i : Instr} {s : State} {e : Status} (h : replyOf i s.operand = .raise e) :
    Answers i s (IsError e.code.toNat) := by
  rw [answers_iff, h]
  exact isError_raise e

/-- Settles O56: the six mnemonics have the default widths 32 and 64, and the six operations refuse W = 0 before they read
the operand. -/
theorem assemblerDefaultWidths : Obligations.AssemblerDefaultWidths := by
  intro rsp t
  refine ⟨assemble_default rsp t (i := .f32enc 32 0 0) rfl rfl rfl,
    assemble_default rsp t (i := .f64enc 64 0 0) rfl rfl rfl,
    assemble_default rsp t (i := .uenc 32 0 0) rfl rfl rfl,
    assemble_default rsp t (i := .smenc 32 0 0) rfl rfl rfl,
    assemble_default rsp t (i := .ocenc 32 0 0) rfl rfl rfl,
    assemble_default rsp t (i := .tcenc 32 0 0) rfl rfl rfl,
    fun k j s => ⟨?_, ?_, ?_, ?_, ?_, ?_⟩⟩
  · exact answers_isError (e := .unsupportedWidth) rfl
  · exact answers_isError (e := .unsupportedWidth) rfl
  all_goals exact answers_isError (e := .invalidParameters) rfl

end Sys2Proof.Machine
end

/-! ## Proofs of the integer-codec family (40_integer_codecs.md) -/

section
namespace Sys2Proof.Machine

open Sys2Proof.Safety

/-! ### From a reply to an answer -/

/-- The result of a reply OK fits RSP. -/
theorem resultFits_of_reply {i : Instr} {t : Text} {res : Result} (h : replyOf i t = .done res) : ResultFits res := by
  obtain ⟨hfail, -⟩ | ⟨-, hfits⟩ := h ▸ replyOf_fits i t
  · exact absurd rfl hfail
  · exact hfits

/-- An instruction whose reply is BITS answers with the length and the value of its digits. -/
theorem answers_isBits {i : Instr} {s : State} {bs : BitString} {len sig : Nat}
    (h : replyOf i s.operand = .done (.bits bs)) (hlen : bs.length = len) (hsig : unsigned bs = sig) :
    Answers i s (IsBits len sig) := by
  rw [answers_iff, h, ← hlen, ← hsig]
  exact isBits_done (resultFits_of_reply h).2

/-- An instruction whose reply is NUM answers with the sign tag and the magnitude. -/
theorem answers_isNum {i : Instr} {s : State} {neg : Bool} {q : Mag} (h : replyOf i s.operand = .done (.num neg q)) :
    Answers i s (IsNum neg ((q.sig : ℚ) * 2 ^ q.exp)) := by
  rw [answers_iff, h]
  exact isNum_done (resultFits_of_reply h)

/-- The text the host renders from a BITS reply is a binary operand that means the same digits (30_encoding.md rule R89). -/
theorem exists_rendered_bits {i : Instr} {s : State} {bs : BitString} (h : replyOf i s.operand = .done (.bits bs)) :
    ∃ r text, exec i s = .next { s with rsp := r } ∧ render r.result = some text ∧ text.length = bs.length ∧
      BitText text bs := by
  obtain ⟨r, hexec, hbits⟩ := answers_isBits h rfl rfl
  obtain ⟨text, hrender, hlen, htext⟩ := render_of_isBits (resultFits_of_reply h).1 hbits
  rw [bin_unsigned] at htext
  exact ⟨r, text, hexec, hrender, hlen, htext⟩

/-! ### One instruction gives one answer -/

/-- Two properties of one answer hold of one RSP. -/
theorem exists_rsp_of_answers {i : Instr} {s : State} {P Q : Rsp → Prop} (hP : Answers i s P) (hQ : Answers i s Q) :
    ∃ r, P r ∧ Q r :=
  ⟨_, (answers_iff i s P).1 hP, (answers_iff i s Q).1 hQ⟩

theorem not_isBits_of_isError {i : Instr} {s : State} {code len sig : Nat} (hcode : code ≠ 0)
    (herr : Answers i s (IsError code)) : ¬Answers i s (IsBits len sig) := by
  intro hbits
  obtain ⟨r, ⟨-, hcode', -⟩, -, hok, -⟩ := exists_rsp_of_answers herr hbits
  rw [hok] at hcode'
  exact hcode hcode'.symm

theorem code_unique {i : Instr} {s : State} {c d : Nat} (hc : Answers i s (IsError c)) (hd : Answers i s (IsError d)) :
    c = d := by
  obtain ⟨r, ⟨-, hc, -⟩, -, hd, -⟩ := exists_rsp_of_answers hc hd
  exact hc.symm.trans hd

/-- The sign tag and the magnitude of a NUM answer are determined. -/
theorem isNum_iff_of_isNum {i : Instr} {s : State} {neg neg' : Bool} {q q' : ℚ} (h : Answers i s (IsNum neg q)) :
    Answers i s (IsNum neg' q') ↔ neg = neg' ∧ q = q' := by
  constructor
  · intro h'
    obtain ⟨r, ⟨-, -, -, hneg, -, hq, -⟩, -, -, -, hneg', -, hq', -⟩ := exists_rsp_of_answers h h'
    exact ⟨Bool.eq_iff_iff.2 (hneg.symm.trans hneg'), hq.symm.trans hq'⟩
  · rintro ⟨rfl, rfl⟩
    exact h

/-! ### What the four encoders share -/

/-- An integer encoder: the width, then the operand, then the part of its own for the integer (neg, n). -/
def encodeInt (w : Nat) (f : Bool → Nat → Reply) (operand : Text) : Reply :=
  if w < 1 ∨ w > Config.maxBits then .raise .invalidParameters
  else
    match parseInt operand with
    | none => .raise .invalidFormat
    | some (neg, n) => f neg n

theorem width_legal {w : Nat} (h1 : 1 ≤ w) (h64 : w ≤ 64) : ¬(w < 1 ∨ w > Config.maxBits) :=
  not_or.2 ⟨not_lt.2 h1, not_lt.2 h64⟩

section Encoder
variable {i : Instr} {w : Nat} {f : Bool → Nat → Reply}

/-- The errors an encoder gives before it looks at the value. -/
theorem encoder_rejects (hi : replyOf i = encodeInt w f) (s : State) :
    (w < 1 ∨ 64 < w → Answers i s (IsError 5)) ∧
      (1 ≤ w → w ≤ 64 → (¬∃ neg n, IntText s.operand neg n) → Answers i s (IsError 1)) := by
  constructor
  · intro hw
    exact answers_isError (e := .invalidParameters) ((congrFun hi _).trans (if_pos hw))
  · intro h1 h64 hno
    have hparse : parseInt s.operand = none := by
      by_contra hsome
      obtain ⟨⟨neg, n⟩, h⟩ := Option.ne_none_iff_exists'.1 hsome
      exact hno ⟨neg, n, (parseIntFollowsItsGrammar _ _ _).1 h⟩
    refine answers_isError (e := .invalidFormat) ?_
    rw [hi, encodeInt, if_neg (width_legal h1 h64), hparse]

/-- On an integer an encoder of a legal width is its own part. -/
theorem replyOf_of_intText (hi : replyOf i = encodeInt w f) (h1 : 1 ≤ w) (h64 : w ≤ 64) {t : Text} {neg : Bool} {n : Nat}
    (ht : IntText t neg n) : replyOf i t = f neg n := by
  rw [hi, encodeInt, if_neg (width_legal h1 h64), (parseIntFollowsItsGrammar _ _ _).2 ht]

end Encoder

/-! ### The encoders' own parts -/

/-- UENC on an integer (rule R101). -/
def uencInt (w : Nat) (neg : Bool) (n : Nat) : Reply :=
  if neg = true ∧ n > 0 then .raise .negativeValueError
  else if n ≥ 2 ^ w then .raise .widthOverflow
  else .done (.bits (bin w n))

/-- The sign digit and the magnitude (rule R105). -/
def smBits (w : Nat) (neg : Bool) (n : Nat) : BitString := decide (neg = true ∧ n > 0) :: bin (w - 1) n

/-- SMENC on an integer (rule R105). -/
def smencInt (w : Nat) (neg : Bool) (n : Nat) : Reply :=
  if n ≥ 2 ^ (w - 1) then .raise .widthOverflow else .done (.bits (smBits w neg n))

/-- The digits of n, inverted for a negative value (rule R109). -/
def ocBits (w : Nat) (neg : Bool) (n : Nat) : BitString :=
  if neg = true ∧ n > 0 then true :: invert (bin (w - 1) n) else false :: bin (w - 1) n

/-- OCENC on an integer (rule R109). -/
def ocencInt (w : Nat) (neg : Bool) (n : Nat) : Reply :=
  if n ≥ 2 ^ (w - 1) then .raise .widthOverflow else .done (.bits (ocBits w neg n))

/-- The digits of v mod 2^w (rule R113). -/
def tcBits (w : Nat) (v : ℤ) : BitString := bin w (v % 2 ^ w).toNat

/-- TCENC on an integer (rule R113). -/
def tcencInt (w : Nat) (neg : Bool) (n : Nat) : Reply :=
  if signedValue neg n < -2 ^ (w - 1) ∨ signedValue neg n > 2 ^ (w - 1) - 1 then .raise .widthOverflow
  else .done (.bits (tcBits w (signedValue neg n)))

theorem replyOf_uenc (w k j : Nat) : replyOf (.uenc w k j) = encodeInt w (uencInt w) := rfl
theorem replyOf_smenc (w k j : Nat) : replyOf (.smenc w k j) = encodeInt w (smencInt w) := rfl

theorem replyOf_ocenc (w k j : Nat) : replyOf (.ocenc w k j) = encodeInt w (ocencInt w) := by
  funext t
  simp only [encodeInt, ocencInt, ocBits, apply_ite Result.bits, apply_ite Reply.done]
  rfl

theorem replyOf_tcenc (w k j : Nat) : replyOf (.tcenc w k j) = encodeInt w (tcencInt w) := rfl

/-! ### Lengths and values of the encoders' digits -/

theorem length_smBits {w : Nat} (h1 : 1 ≤ w) (neg : Bool) (n : Nat) : (smBits w neg n).length = w := by
  rw [smBits, List.length_cons, length_bin]
  omega

theorem unsigned_smBits {w n : Nat} (hn : n < 2 ^ (w - 1)) (neg : Bool) :
    unsigned (smBits w neg n) = (if neg = true ∧ 0 < n then 2 ^ (w - 1) else 0) + n := by
  rw [smBits, unsigned_cons, unsigned_bin hn, length_bin, bitValue]
  simp

theorem length_ocBits {w : Nat} (h1 : 1 ≤ w) (neg : Bool) (n : Nat) : (ocBits w neg n).length = w := by
  unfold ocBits
  split_ifs <;> simp <;> omega

theorem unsigned_ocBits {w n : Nat} (h1 : 1 ≤ w) (hn : n < 2 ^ (w - 1)) (neg : Bool) :
    unsigned (ocBits w neg n) = if neg = true ∧ 0 < n then 2 ^ w - 1 - n else n := by
  unfold ocBits
  split_ifs
  · have hinv := unsigned_invert (bin (w - 1) n)
    rw [unsigned_bin hn, length_bin] at hinv
    rw [unsigned_cons, length_invert, length_bin, bitValue_true, ← Nat.two_pow_pred_add_two_pow_pred h1]
    omega
  · simp [hn]

theorem length_tcBits (w : Nat) (v : ℤ) : (tcBits w v).length = w := length_bin _ _

theorem unsigned_tcBits (w : Nat) (v : ℤ) : (unsigned (tcBits w v) : ℤ) = v % 2 ^ w := by
  have hpos : (0 : ℤ) < 2 ^ w := by positivity
  have h0 := Int.emod_nonneg v hpos.ne'
  have hlt : (v % 2 ^ w).toNat < 2 ^ w := by
    zify
    rw [Int.toNat_of_nonneg h0]
    exact Int.emod_lt_of_pos v hpos
  rw [tcBits, unsigned_bin hlt, Int.toNat_of_nonneg h0]

/-- Within the range of TCENC `v mod 2^w` is v, or v + 2^w for a negative v. -/
theorem emod_two_pow_of_range {w : Nat} (h1 : 1 ≤ w) {v : ℤ} (hlow : -2 ^ (w - 1) ≤ v) (hhigh : v ≤ 2 ^ (w - 1) - 1) :
    v % 2 ^ w = if v < 0 then v + 2 ^ w else v := by
  have hw : (2 : ℤ) ^ w = 2 * 2 ^ (w - 1) := by rw [← pow_succ', Nat.sub_add_cancel h1]
  split_ifs with hneg
  · rw [← Int.add_emod_right, Int.emod_eq_of_lt] <;> omega
  · exact Int.emod_eq_of_lt (by omega) (by omega)

/-! ### What the four decoders share -/

/-- An integer decoder: the operand, then its length, then the sign tag and the magnitude read from the digits. -/
def decodeBits (f : BitString → Bool × Nat) (operand : Text) : Reply :=
  match parseBits operand with
  | none => .raise .invalidFormat
  | some bs =>
    if bs.length > Config.maxBits then .raise .widthMismatch
    else .done (.num (f bs).1 { sig := (f bs).2, exp := 0 })

section Decoder
variable {i : Instr} {f : BitString → Bool × Nat}

theorem decoder_rejects (hi : replyOf i = decodeBits f) (s : State) (hno : ¬∃ bs, BitText s.operand bs) :
    Answers i s (IsError 1) := by
  have hparse : parseBits s.operand = none := by
    by_contra hsome
    obtain ⟨bs, h⟩ := Option.ne_none_iff_exists'.1 hsome
    exact hno ⟨bs, (parseBitsFollowsItsGrammar _ _).1 h⟩
  refine answers_isError (e := .invalidFormat) ?_
  rw [hi, decodeBits, hparse]

theorem decoder_rejects_overlong (hi : replyOf i = decodeBits f) {s : State} {bs : BitString}
    (ht : BitText s.operand bs) (h64 : 64 < bs.length) : Answers i s (IsError 3) := by
  refine answers_isError (e := .widthMismatch) ?_
  rw [hi, decodeBits, (parseBitsFollowsItsGrammar _ _).2 ht]
  exact if_pos h64

theorem decoder_answers (hi : replyOf i = decodeBits f) {s : State} {bs : BitString}
    (ht : BitText s.operand bs) (h64 : bs.length ≤ 64) : Answers i s (IsNum (f bs).1 (f bs).2) := by
  have hreply : replyOf i s.operand = .done (.num (f bs).1 { sig := (f bs).2, exp := 0 }) := by
    rw [hi, decodeBits, (parseBitsFollowsItsGrammar _ _).2 ht]
    exact if_neg (not_lt.2 h64)
  simpa using answers_isNum hreply

end Decoder

/-! ### The numbers the decoders read -/

/-- The sign tag and the magnitude that UDEC reads (rule R103). -/
def unsignedNumber (bs : BitString) : Bool × Nat := (false, unsigned bs)

/-- The sign tag and the magnitude that SMDEC reads (rule R107). -/
def smNumber (bs : BitString) : Bool × Nat := (digit bs 0, unsigned (slice bs 1 (bs.length - 1)))

/-- The sign tag and the magnitude that OCDEC reads (rule R111). -/
def ocNumber (bs : BitString) : Bool × Nat := if digit bs 0 then (true, unsigned (invert bs)) else (false, unsigned bs)

/-- The integer that TCDEC reads (rule R115). -/
def tcValue (bs : BitString) : ℤ := (unsigned bs : ℤ) - bitValue (digit bs 0) * 2 ^ bs.length

/-- The sign tag and the magnitude that TCDEC reads (rule R115). -/
def tcNumber (bs : BitString) : Bool × Nat := (decide (tcValue bs < 0), (tcValue bs).natAbs)

theorem replyOf_udec (w k j : Nat) : replyOf (.udec w k j) = decodeBits unsignedNumber := rfl
theorem replyOf_smdec (w k j : Nat) : replyOf (.smdec w k j) = decodeBits smNumber := rfl

theorem replyOf_ocdec (w k j : Nat) : replyOf (.ocdec w k j) = decodeBits ocNumber := by
  funext t
  simp only [replyOf, ocdec, decodeBits, ocNumber]
  cases parseBits t with
  | none => rfl
  | some bs => cases h : digit bs 0 <;> simp [h]

theorem replyOf_tcdec (w k j : Nat) : replyOf (.tcdec w k j) = decodeBits tcNumber := rfl

theorem smNumber_cons (b : Bool) (bs : BitString) : smNumber (b :: bs) = (b, unsigned bs) := by
  rw [smNumber, digit_zero, slice_tail]

theorem invert_cons (b : Bool) (bs : BitString) : invert (b :: bs) = (!b) :: invert bs := rfl

/-- The first digit is the sign; what is inverted with it begins with the digit 0. -/
theorem ocNumber_cons (b : Bool) (bs : BitString) :
    ocNumber (b :: bs) = (b, unsigned (if b then invert bs else bs)) := by
  cases b <;> simp [ocNumber, invert_cons]

/-- TCDEC reads the digits' value modulo 2^w, balanced around 0. -/
theorem tcValue_eq_bmod {bs : BitString} (hne : bs ≠ []) : tcValue bs = (unsigned bs : ℤ).bmod (2 ^ bs.length) := by
  obtain ⟨b, bs, rfl⟩ := List.exists_cons_of_ne_nil hne
  have hlt : (unsigned bs : ℤ) < 2 ^ bs.length := by exact_mod_cast unsigned_lt bs
  have hmod : (unsigned (b :: bs) : ℤ) % (2 ^ (b :: bs).length : ℕ) = unsigned (b :: bs) := by
    exact_mod_cast Nat.mod_eq_of_lt (unsigned_lt (b :: bs))
  rw [Int.bmod_def, hmod, tcValue, digit_zero, unsigned_cons, List.length_cons, pow_succ, pow_succ]
  cases b with
  | false =>
    rw [if_pos (by push_cast [bitValue_false]; omega), bitValue_false]
    omega
  | true =>
    rw [if_neg (by push_cast [bitValue_true]; omega), bitValue_true]
    push_cast
    omega

/-! ### The integer of a sign tag and a magnitude -/

theorem signedValue_neg_iff (neg : Bool) (n : Nat) : signedValue neg n < 0 ↔ neg = true ∧ 0 < n := by
  cases neg <;> simp [signedValue]

theorem signedValue_eq (neg : Bool) (n : Nat) : signedValue neg n = if neg = true ∧ 0 < n then -(n : ℤ) else n := by
  cases neg with
  | false => simp [signedValue]
  | true =>
    simp only [signedValue, if_true, true_and]
    split_ifs <;> omega

theorem natAbs_signedValue (neg : Bool) (n : Nat) : (signedValue neg n).natAbs = n := by
  cases neg <;> simp [signedValue]

/-! ### Each decoder reads what its encoder wrote (rule R118) -/

theorem unsignedNumber_bin {w n : Nat} (hn : n < 2 ^ w) : unsignedNumber (bin w n) = (false, n) := by
  rw [unsignedNumber, unsigned_bin hn]

theorem smNumber_smBits {w n : Nat} (hn : n < 2 ^ (w - 1)) (neg : Bool) :
    smNumber (smBits w neg n) = (decide (neg = true ∧ 0 < n), n) := by
  rw [smBits, smNumber_cons, unsigned_bin hn]

theorem invert_invert (bs : BitString) : invert (invert bs) = bs := by
  simp [invert, Function.comp_def]

theorem ocNumber_ocBits {w n : Nat} (hn : n < 2 ^ (w - 1)) (neg : Bool) :
    ocNumber (ocBits w neg n) = (decide (neg = true ∧ 0 < n), n) := by
  unfold ocBits
  split_ifs with hneg
  · simp [ocNumber_cons, invert_invert, hn, hneg]
  · simp [ocNumber_cons, hn, hneg]

theorem tcValue_tcBits {w : Nat} (h1 : 1 ≤ w) {v : ℤ} (hlow : -2 ^ (w - 1) ≤ v) (hhigh : v ≤ 2 ^ (w - 1) - 1) :
    tcValue (tcBits w v) = v := by
  have hw : 2 ^ w = 2 * 2 ^ (w - 1) := by rw [← pow_succ', Nat.sub_add_cancel h1]
  have hmod : (unsigned (tcBits w v) : ℤ) = v % (2 ^ w : ℕ) := by rw [unsigned_tcBits]; push_cast; rfl
  have hne : tcBits w v ≠ [] := bin_ne_nil h1 _
  rw [tcValue_eq_bmod hne, hmod, length_tcBits, Int.emod_bmod]
  apply Int.bmod_eq_of_le <;> rw [hw] <;> push_cast <;> omega

theorem tcNumber_tcBits {w n : Nat} {neg : Bool} (h1 : 1 ≤ w) (hlow : -2 ^ (w - 1) ≤ signedValue neg n)
    (hhigh : signedValue neg n ≤ 2 ^ (w - 1) - 1) :
    tcNumber (tcBits w (signedValue neg n)) = (decide (neg = true ∧ 0 < n), n) := by
  simp only [tcNumber, tcValue_tcBits h1 hlow hhigh, signedValue_neg_iff, natAbs_signedValue]

/-- A decoder on the rendered digits of an encoder. -/
theorem decode_rendered_bits {enc dec : Instr} {s : State} {bs : BitString} {f : BitString → Bool × Nat} {neg : Bool}
    {n : Nat} (henc : replyOf enc s.operand = .done (.bits bs)) (hdec : replyOf dec = decodeBits f)
    (hread : f bs = (neg, n)) :
    ∃ r text, exec enc s = .next { s with rsp := r } ∧ render r.result = some text ∧ text.length = bs.length ∧
      ∀ t : State, t.operand = text → Answers dec t (IsNum neg n) := by
  obtain ⟨r, text, hexec, hrender, hlen, htext⟩ := exists_rendered_bits henc
  refine ⟨r, text, hexec, hrender, hlen, fun t ht => ?_⟩
  simpa [hread] using decoder_answers hdec (ht ▸ htext) (resultFits_of_reply henc).2

/-- TCENC of an integer within its range. -/
theorem tcencInt_of_range {w n : Nat} {neg : Bool} (hlow : -2 ^ (w - 1) ≤ signedValue neg n)
    (hhigh : signedValue neg n ≤ 2 ^ (w - 1) - 1) : tcencInt w neg n = .done (.bits (tcBits w (signedValue neg n))) :=
  if_neg (by omega)

/-- The range of TCENC in magnitudes. -/
theorem signedValue_range {w n : Nat} {neg : Bool} (h : n < 2 ^ (w - 1) ∨ (neg = true ∧ n = 2 ^ (w - 1))) :
    -2 ^ (w - 1) ≤ signedValue neg n ∧ signedValue neg n ≤ 2 ^ (w - 1) - 1 := by
  cases neg with
  | false =>
    have hn : (n : ℤ) < 2 ^ (w - 1) := by exact_mod_cast h.resolve_right (by simp)
    change -2 ^ (w - 1) ≤ (n : ℤ) ∧ (n : ℤ) ≤ 2 ^ (w - 1) - 1
    omega
  | true =>
    have hn : (n : ℤ) ≤ 2 ^ (w - 1) := by exact_mod_cast h.elim le_of_lt fun h => h.2.le
    change -2 ^ (w - 1) ≤ -(n : ℤ) ∧ -(n : ℤ) ≤ 2 ^ (w - 1) - 1
    have := pow_pos (two_pos (α := ℤ)) (w - 1)
    omega

/-- Settles O42: each encoder's digits are read back by its decoder, from the text that the host renders. -/
theorem integerCodecsRoundTrip : Obligations.IntegerCodecsRoundTrip := by
  intro w k j n neg s h1 h64 ht enc dec h
  rcases h with ⟨rfl, rfl, hpos, hn⟩ | ⟨rfl, rfl, hn⟩ | ⟨rfl, rfl, hn⟩ | ⟨rfl, rfl, hn⟩
  · have hreply := (replyOf_of_intText (replyOf_uenc w k j) h1 h64 ht).trans
      ((if_neg hpos).trans (if_neg (not_le.2 hn)))
    simpa [hpos] using decode_rendered_bits hreply (replyOf_udec w k j) (unsignedNumber_bin hn)
  · have hreply := (replyOf_of_intText (replyOf_smenc w k j) h1 h64 ht).trans (if_neg (not_le.2 hn))
    simpa only [length_smBits h1] using decode_rendered_bits hreply (replyOf_smdec w k j) (smNumber_smBits hn neg)
  · have hreply := (replyOf_of_intText (replyOf_ocenc w k j) h1 h64 ht).trans (if_neg (not_le.2 hn))
    simpa only [length_ocBits h1] using decode_rendered_bits hreply (replyOf_ocdec w k j) (ocNumber_ocBits hn neg)
  · obtain ⟨hlow, hhigh⟩ := signedValue_range hn
    have hreply := (replyOf_of_intText (replyOf_tcenc w k j) h1 h64 ht).trans (tcencInt_of_range hlow hhigh)
    simpa only [length_tcBits] using decode_rendered_bits hreply (replyOf_tcdec w k j) (tcNumber_tcBits h1 hlow hhigh)

/-! ### The encoders follow their rules -/

/-- Settles O29: the width and the format first, then the three branches of UENC on an integer. -/
theorem uencFollowsItsRule : Obligations.UencFollowsItsRule := by
  intro w k j s
  obtain ⟨hwidth, hformat⟩ := encoder_rejects (replyOf_uenc w k j) s
  refine ⟨(fields_encode (.uenc w k j)).1, hwidth, hformat, fun neg n h1 h64 ht => ?_⟩
  have hreply := replyOf_of_intText (replyOf_uenc w k j) h1 h64 ht
  refine ⟨fun hneg => ?_, fun hpos hlarge => ?_, fun hpos hn => ?_⟩
  · exact answers_isError (e := .negativeValueError) (hreply.trans (if_pos hneg))
  · exact answers_isError (e := .widthOverflow) (hreply.trans ((if_neg hpos).trans (if_pos hlarge)))
  · exact answers_isBits (hreply.trans ((if_neg hpos).trans (if_neg (not_le.2 hn)))) (length_bin w n) (unsigned_bin hn)

/-- Settles O32: the digits are the sign digit, worth 2^(w-1), and the w - 1 digits of the magnitude. -/
theorem smencFollowsItsRule : Obligations.SmencFollowsItsRule := by
  intro w k j s
  obtain ⟨hwidth, hformat⟩ := encoder_rejects (replyOf_smenc w k j) s
  refine ⟨(fields_encode (.smenc w k j)).1, hwidth, hformat, fun neg n h1 h64 ht => ?_⟩
  have hreply := replyOf_of_intText (replyOf_smenc w k j) h1 h64 ht
  refine ⟨fun hlarge => ?_, fun hn => ?_⟩
  · exact answers_isError (e := .widthOverflow) (hreply.trans (if_pos hlarge))
  · exact answers_isBits (hreply.trans (if_neg (not_le.2 hn))) (length_smBits h1 neg n) (unsigned_smBits hn neg)

/-- Settles O34: inverting the digits of a negative value subtracts the magnitude from the all-ones value. -/
theorem ocencFollowsItsRule : Obligations.OcencFollowsItsRule := by
  intro w k j s
  obtain ⟨hwidth, hformat⟩ := encoder_rejects (replyOf_ocenc w k j) s
  refine ⟨(fields_encode (.ocenc w k j)).1, hwidth, hformat, fun neg n h1 h64 ht => ?_⟩
  have hreply := replyOf_of_intText (replyOf_ocenc w k j) h1 h64 ht
  refine ⟨fun hlarge => ?_, fun hn => ?_⟩
  · exact answers_isError (e := .widthOverflow) (hreply.trans (if_pos hlarge))
  · exact answers_isBits (hreply.trans (if_neg (not_le.2 hn))) (length_ocBits h1 neg n) (unsigned_ocBits h1 hn neg)

/-- Settles O36: the value of the digits is v mod 2^w, which is v or v + 2^w in the range. -/
theorem tcencFollowsItsRule : Obligations.TcencFollowsItsRule := by
  intro w k j s
  obtain ⟨hwidth, hformat⟩ := encoder_rejects (replyOf_tcenc w k j) s
  refine ⟨(fields_encode (.tcenc w k j)).1, hwidth, hformat, ?_⟩
  rintro neg n v h1 h64 ht rfl
  have hreply := replyOf_of_intText (replyOf_tcenc w k j) h1 h64 ht
  refine ⟨fun hout => ?_, fun hlow hhigh => ⟨unsigned (tcBits w (signedValue neg n)), ?_, ?_⟩⟩
  · exact answers_isError (e := .widthOverflow) (hreply.trans (if_pos hout))
  · rw [unsigned_tcBits]
    exact emod_two_pow_of_range h1 hlow hhigh
  · exact answers_isBits (hreply.trans (tcencInt_of_range hlow hhigh)) (length_tcBits w _) rfl

/-! ### Which values the encoders accept -/

theorem naturalBitLength_le_iff (n L : Nat) : naturalBitLength n ≤ L ↔ n < 2 ^ L := by
  unfold naturalBitLength
  split_ifs with h0
  · simp [h0]
  · exact Nat.log2_lt h0

/-- Settles O30: UENC of a value that is not negative gives BITS below 2^w and WidthOverflow from there on. -/
theorem uencSucceedsExactlyWhenTheBitsFit : Obligations.UencSucceedsExactlyWhenTheBitsFit := by
  refine ⟨naturalBitLength_le_iff, rfl, fun w k j n neg s h1 h64 ht hpos => ?_⟩
  obtain ⟨-, -, -, hrule⟩ := uencFollowsItsRule w k j s
  obtain ⟨-, hover, hbits⟩ := hrule neg n h1 h64 ht
  rw [naturalBitLength_le_iff]
  constructor
  · rintro ⟨len, sig, hok⟩
    by_contra hlarge
    exact not_isBits_of_isError (by decide) (hover hpos (not_lt.1 hlarge)) hok
  · exact fun hn => ⟨w, n, hbits hpos hn⟩

/-- Settles O39: 2^w - 1 - n plus 1 is -n + 2^w. -/
theorem tcencIsOcencPlusOneWhenNegative : Obligations.TcencIsOcencPlusOneWhenNegative := by
  intro w k j n neg s h1 h64 ht hn
  obtain ⟨-, -, -, hoc⟩ := ocencFollowsItsRule w k j s
  obtain ⟨-, -, -, htc⟩ := tcencFollowsItsRule w k j s
  obtain ⟨-, hocbits⟩ := hoc neg n h1 h64 ht
  obtain ⟨-, htcbits⟩ := htc neg n _ h1 h64 ht rfl
  obtain ⟨hlow, hhigh⟩ := signedValue_range (neg := neg) (.inl hn)
  obtain ⟨tc, hval, hanswer⟩ := htcbits hlow hhigh
  refine ⟨_, tc, hocbits hn, hanswer, ?_⟩
  have hlt : n < 2 ^ w := hn.trans_le (Nat.pow_le_pow_right two_pos (Nat.sub_le w 1))
  have hcast : ((2 ^ w : ℕ) : ℤ) = 2 ^ w := by simp
  change (tc : ℤ) = if signedValue neg n < 0 then signedValue neg n + 2 ^ w else signedValue neg n at hval
  have hiff := signedValue_neg_iff neg n
  have heq := signedValue_eq neg n
  by_cases hneg : neg = true ∧ 0 < n
  · rw [if_pos (hiff.2 hneg), heq, if_pos hneg] at hval
    rw [if_pos hneg, if_pos hneg]
    omega
  · rw [if_neg (mt hiff.1 hneg), heq, if_neg hneg] at hval
    rw [if_neg hneg, if_neg hneg]
    omega

/-- An encoder that gives BITS in a range and WidthOverflow outside it gives each exactly there. -/
theorem bits_and_overflow_iff {i : Instr} {s : State} {w : Nat} {inside outside : Prop} (hor : outside ↔ ¬inside)
    (hin : inside → ∃ sig, Answers i s (IsBits w sig)) (hout : outside → Answers i s (IsError 4)) :
    (inside ↔ ∃ sig, Answers i s (IsBits w sig)) ∧ (outside ↔ Answers i s (IsError 4)) := by
  have hex : (∃ sig, Answers i s (IsBits w sig)) → ¬Answers i s (IsError 4) :=
    fun ⟨_, hbits⟩ herr => not_isBits_of_isError (by decide) herr hbits
  tauto

/-- The same for the encoder of the unsigned values, which has an error of its own below 0. -/
theorem bits_and_negative_and_overflow_iff {i : Instr} {s : State} {w : Nat} {inside below above : Prop}
    (hor : inside ∨ below ∨ above) (hin : inside → ∃ sig, Answers i s (IsBits w sig))
    (hbelow : below → Answers i s (IsError 2)) (habove : above → Answers i s (IsError 4)) :
    (inside ↔ ∃ sig, Answers i s (IsBits w sig)) ∧ (below ↔ Answers i s (IsError 2)) ∧
      (above ↔ Answers i s (IsError 4)) := by
  have hex : ∀ {code : Nat}, code ≠ 0 → (∃ sig, Answers i s (IsBits w sig)) → ¬Answers i s (IsError code) :=
    fun hcode ⟨_, hbits⟩ herr => not_isBits_of_isError hcode herr hbits
  have hex2 := hex (code := 2) (by decide)
  have hex4 := hex (code := 4) (by decide)
  have hcodes : Answers i s (IsError 2) → ¬Answers i s (IsError 4) := fun h2 h4 => absurd (code_unique h2 h4) (by decide)
  tauto

/-- Settles O40: in terms of (neg, n) the ranges are those of the encoders' own conditions. -/
theorem encodableRanges : Obligations.EncodableRanges := by
  rintro w k j n neg v s h1 h64 ht hv
  obtain ⟨-, -, -, hu⟩ := uencFollowsItsRule w k j s
  obtain ⟨-, -, -, hsm⟩ := smencFollowsItsRule w k j s
  obtain ⟨-, -, -, hoc⟩ := ocencFollowsItsRule w k j s
  obtain ⟨-, -, -, htc⟩ := tcencFollowsItsRule w k j s
  obtain ⟨hubelow, huabove, huin⟩ := hu neg n h1 h64 ht
  obtain ⟨hsmout, hsmin⟩ := hsm neg n h1 h64 ht
  obtain ⟨hocout, hocin⟩ := hoc neg n h1 h64 ht
  obtain ⟨htcout, htcin⟩ := htc neg n v h1 h64 ht hv
  have hneg : v < 0 ↔ neg = true ∧ 0 < n := hv ▸ signedValue_neg_iff neg n
  have habs : v.natAbs = n := hv ▸ natAbs_signedValue neg n
  have hpos : (0 : ℤ) < 2 ^ w := by positivity
  zify at hneg hubelow huabove huin hsmout hsmin hocout hocin
  refine ⟨bits_and_negative_and_overflow_iff (by omega) ?_ (hubelow ∘ hneg.1) ?_, bits_and_overflow_iff (by omega) ?_ ?_,
    bits_and_overflow_iff (by omega) ?_ ?_, bits_and_overflow_iff (by omega) ?_ htcout⟩
  · exact fun hin => ⟨n, huin (mt hneg.2 (by omega)) (by omega)⟩
  · exact fun hout => huabove (mt hneg.2 (by omega)) (by omega)
  · exact fun hin => ⟨_, hsmin (by omega)⟩
  · exact fun hout => hsmout (by omega)
  · exact fun hin => ⟨_, hocin (by omega)⟩
  · exact fun hout => hocout (by omega)
  · rintro ⟨hlow, hhigh⟩
    obtain ⟨sig, -, hbits⟩ := htcin hlow hhigh
    exact ⟨sig, hbits⟩

/-! ### The decoders follow their rules -/

/-- Settles O31: UDEC reads (false, U(bs)). -/
theorem udecFollowsItsRule : Obligations.UdecFollowsItsRule := by
  intro w k j s
  refine ⟨(fields_encode (.udec w k j)).1, decoder_rejects (replyOf_udec w k j) s, fun bs ht =>
    ⟨decoder_rejects_overlong (replyOf_udec w k j) ht, fun h64 => ?_⟩⟩
  rw [← unsigned_eq_uValue]
  exact decoder_answers (replyOf_udec w k j) ht h64

/-- Settles O33: SMDEC reads the first digit and the value of the other digits. -/
theorem smdecFollowsItsRule : Obligations.SmdecFollowsItsRule := by
  intro w k j s
  refine ⟨(fields_encode (.smdec w k j)).1, decoder_rejects (replyOf_smdec w k j) s, fun b bs ht =>
    ⟨decoder_rejects_overlong (replyOf_smdec w k j) ht, fun h64 => ?_⟩⟩
  rw [← unsigned_eq_uValue]
  simpa only [smNumber_cons] using decoder_answers (replyOf_smdec w k j) ht h64

/-- Settles O35: OCDEC reads the digits, inverted when the first is 1. -/
theorem ocdecFollowsItsRule : Obligations.OcdecFollowsItsRule := by
  intro w k j s
  refine ⟨(fields_encode (.ocdec w k j)).1, decoder_rejects (replyOf_ocdec w k j) s, fun b bs ht =>
    ⟨decoder_rejects_overlong (replyOf_ocdec w k j) ht, ?_, ?_⟩⟩
  all_goals
    rintro h64 rfl
    rw [← unsigned_eq_uValue]
    exact decoder_answers (replyOf_ocdec w k j) ht h64

theorem tcValue_cons (b : Bool) (bs : BitString) :
    tcValue (b :: bs) = (uValue (b :: bs) : ℤ) - (if b then 1 else 0) * 2 ^ (b :: bs).length := by
  rw [tcValue, digit_zero, unsigned_eq_uValue, bitValue]
  push_cast
  rfl

/-- Settles O37: TCDEC reads the sign and the magnitude of v. -/
theorem tcdecFollowsItsRule : Obligations.TcdecFollowsItsRule := by
  intro w k j s
  refine ⟨(fields_encode (.tcdec w k j)).1, decoder_rejects (replyOf_tcdec w k j) s, fun b bs v ht hv =>
    ⟨decoder_rejects_overlong (replyOf_tcdec w k j) ht, fun h64 => ?_⟩⟩
  rw [← tcValue_cons] at hv
  rw [hv, ← Nat.cast_natAbs]
  exact decoder_answers (replyOf_tcdec w k j) ht h64

/-! ### Which patterns the decoders read as zero -/

theorem invert_eq_replicate_false {n : Nat} (bs : BitString) :
    invert bs = List.replicate n false ↔ bs = List.replicate n true := by
  simp [invert, List.eq_replicate_iff]

/-- The first digit alone keeps a string that begins with 1 below zero (rule R116). -/
theorem tcValue_eq_zero {bs : BitString} (hne : bs ≠ []) : tcValue bs = 0 ↔ unsigned bs = 0 := by
  obtain ⟨b, bs, rfl⟩ := List.exists_cons_of_ne_nil hne
  have hlt : (unsigned (b :: bs) : ℤ) < 2 ^ (b :: bs).length := by exact_mod_cast unsigned_lt (b :: bs)
  rw [tcValue, digit_zero]
  cases b with
  | false => simp
  | true =>
    have hpos : unsigned (true :: bs) ≠ 0 := by simp
    rw [bitValue_true]
    omega

theorem tcNumber_eq_zero_iff (bs : BitString) (neg : Bool) : tcNumber bs = (neg, 0) ↔ neg = false ∧ tcValue bs = 0 := by
  rw [tcNumber, Prod.mk.injEq, Int.natAbs_eq_zero, and_congr_left_iff]
  intro h0
  simp [h0, eq_comm]

/-- A decoder answers a zero of either sign exactly for the digits that it reads so. -/
theorem decoder_answers_zero_iff {i : Instr} {f : BitString → Bool × Nat} (hi : replyOf i = decodeBits f) {s : State}
    {bs : BitString} (ht : BitText s.operand bs) (h64 : bs.length ≤ 64) (neg : Bool) :
    Answers i s (IsNum neg 0) ↔ f bs = (neg, 0) := by
  rw [isNum_iff_of_isNum (decoder_answers hi ht h64), Nat.cast_eq_zero, ← Prod.mk.injEq]

/-- Settles O38: a string is a zero pattern when its magnitude digits, inverted or not, are all 0. -/
theorem zeroPatternsOfEachRepresentation : Obligations.ZeroPatternsOfEachRepresentation := by
  intro w k j n s bs ht hlen h64
  obtain ⟨b, bs, rfl⟩ := List.exists_cons_of_ne_nil ht.1
  obtain rfl : bs.length = n := Nat.succ_inj.1 hlen
  have hsm := decoder_answers_zero_iff (replyOf_smdec w k j) ht h64
  have hoc := decoder_answers_zero_iff (replyOf_ocdec w k j) ht h64
  have htc := decoder_answers_zero_iff (replyOf_tcdec w k j) ht h64
  simp only [smNumber_cons, Prod.mk.injEq, unsigned_eq_zero] at hsm
  simp only [ocNumber_cons, Prod.mk.injEq] at hoc
  simp only [tcNumber_eq_zero_iff, tcValue_eq_zero ht.1, unsigned_eq_zero] at htc
  simp only [List.replicate_succ, List.cons.injEq]
  refine ⟨⟨hsm false, hsm true⟩, ⟨(hoc false).trans (and_congr_right ?_), (hoc true).trans (and_congr_right ?_)⟩, ?_, ?_⟩
  · rintro rfl
    exact unsigned_eq_zero
  · rintro rfl
    rw [if_pos rfl, unsigned_eq_zero, length_invert, invert_eq_replicate_false]
  · simpa [List.replicate_succ] using htc false
  · simp [htc]

/-! ### Within which ranges the decoders' numbers lie -/

theorem smNumber_lt {b : Bool} {bs : BitString} (h64 : (b :: bs).length ≤ 64) : (smNumber (b :: bs)).2 < 2 ^ 63 := by
  rw [smNumber_cons]
  exact (unsigned_lt bs).trans_le (Nat.pow_le_pow_right two_pos (Nat.le_of_succ_le_succ h64))

theorem ocNumber_lt (b : Bool) (bs : BitString) : (ocNumber (b :: bs)).2 < 2 ^ bs.length := by
  rw [ocNumber_cons]
  cases b with
  | false => exact unsigned_lt bs
  | true => exact length_invert bs ▸ unsigned_lt (invert bs)

theorem tcNumber_le (b : Bool) (bs : BitString) : (tcNumber (b :: bs)).2 ≤ 2 ^ bs.length := by
  have hpos : 0 < 2 ^ (b :: bs).length := by positivity
  have hlow := Int.le_bmod (x := unsigned (b :: bs)) hpos
  have hhigh := Int.bmod_lt (x := unsigned (b :: bs)) hpos
  rw [← tcValue_eq_bmod (List.cons_ne_nil b bs), List.length_cons, pow_succ] at hlow hhigh
  simp only [tcNumber]
  omega

/-- FXDEC on a digit string of its layout (rule R144). -/
theorem fxdec_of_bitText {k j : Nat} {t : Text} {bs : BitString} (hk : 1 ≤ k) (hj : 1 ≤ j)
    (hlen : bs.length = k + j + 1) (h64 : bs.length ≤ 64) (ht : BitText t bs) :
    fxdec k j t = .done (.num (digit bs 0) (fixedPointMag k j bs)) := by
  have hlegal : ¬badFixedPoint k j = true := by
    rw [badFixedPoint_iff]
    omega
  rw [fxdec, if_neg hlegal, (parseBitsFollowsItsGrammar _ _).2 ht]
  exact if_neg (not_not.2 hlen)

/-- Settles O41: the bounds of the numbers that the decoders read. -/
theorem decodersAreTotalWithinTheirRanges : Obligations.DecodersAreTotalWithinTheirRanges := by
  intro w k j s bs ht
  refine ⟨fun h64 => ?_, fun hk hj hlen h64 => ⟨digit bs 0, _, fixedPointMag_sig_lt k j bs, ?_⟩⟩
  · obtain ⟨b, bs, rfl⟩ := List.exists_cons_of_ne_nil ht.1
    refine ⟨⟨_, decoder_answers (replyOf_udec w k j) ht h64, ?_⟩, ⟨_, _, decoder_answers (replyOf_smdec w k j) ht h64, ?_⟩,
      ⟨_, _, decoder_answers (replyOf_ocdec w k j) ht h64, ?_⟩, _, _, decoder_answers (replyOf_tcdec w k j) ht h64, ?_⟩
    · have hle : unsigned (b :: bs) + 1 ≤ 2 ^ 64 := unsigned_lt_64 h64
      rw [le_sub_iff_add_le]
      exact_mod_cast hle
    · exact_mod_cast smNumber_lt h64
    · exact_mod_cast ocNumber_lt b bs
    · exact_mod_cast tcNumber_le b bs
  · have hnum := answers_isNum (i := .fxdec w k j) (fxdec_of_bitText hk hj hlen h64 ht)
    simpa [fixedPointMag, div_eq_mul_inv] using hnum

end Sys2Proof.Machine
end

/-! ## Proofs of the fixed-point family (41_fixed_point.md) -/

section
namespace Sys2Proof.Machine

open Sys2Proof.Safety

/-! ### Repeated doubling (rule R143) -/

theorem bin_zero (n : Nat) : bin n 0 = List.replicate n false := by
  simpa using unsigned_eq_zero.1 (unsigned_bin (Nat.two_pow_pos n))

/-- Scaling num / den up scales its integer part and its fraction. -/
theorem mul_div_eq_div_mul_add_mod (num : Nat) {den : Nat} (hden : 0 < den) (m : Nat) :
    num * m / den = num / den * m + num % den * m / den := by
  conv_lhs => rw [← Nat.div_add_mod num den, add_mul, mul_assoc, Nat.mul_add_div hden]

/-- The first j digits of a fraction rem / den below 1 fit j digits. -/
theorem fraction_lt {den rem : Nat} (h : rem < den) (j : Nat) : rem * 2 ^ j / den < 2 ^ j := by
  rw [Nat.div_lt_iff_lt_mul (Nat.zero_lt_of_lt h), mul_comm]
  exact Nat.mul_lt_mul_of_pos_left h (Nat.two_pow_pos j)

/-- Doubling a fraction below 1 moves its first binary digit into the integer position. -/
theorem bin_one_two_mul_div {den rem : Nat} (h : rem < den) : bin 1 (2 * rem / den) = [decide (den ≤ 2 * rem)] := by
  by_cases hle : den ≤ 2 * rem
  · have : 2 * rem / den = 1 := Nat.div_eq_of_lt_le (by omega) (by omega)
    simp [this, hle, bin]
  · simp [Nat.div_eq_of_lt (not_le.1 hle), hle, bin]

/-- Settles O45, by induction on the digits to come: a doubling emits the first of them and leaves the fraction of the
others, and a remainder 0 leaves zeros only. -/
theorem repeatedDoublingGivesTheFractionDigits : Obligations.RepeatedDoublingGivesTheFractionDigits := by
  intro den rem j
  induction j generalizing rem with
  | zero => exact fun _ => rfl
  | succ j ih =>
    intro h
    have hden : 0 < den := Nat.zero_lt_of_lt h
    have hrest : 2 * rem % den < den := Nat.mod_lt _ hden
    rw [repeatedDoubling]
    split_ifs with h0
    · simp [h0, bin_zero]
    · have hsplit : rem * 2 ^ (j + 1) / den = 2 * rem / den * 2 ^ j + 2 * rem % den * 2 ^ j / den := by
        rw [← mul_div_eq_div_mul_add_mod _ hden, pow_succ', mul_left_comm, mul_assoc]
      rw [hsplit, add_comm j 1, bin_add (fraction_lt hrest j), bin_one_two_mul_div h, ih _ hrest]
      rfl

/-! ### The parameters (rule R141) -/

theorem fixedPoint_legal {k j : Nat} (hk : 1 ≤ k) (hj : 1 ≤ j) (h64 : k + j + 1 ≤ 64) : ¬badFixedPoint k j = true := by
  rw [badFixedPoint_iff]
  omega

/-! ### The pattern of a decimal (rules R140, R142) -/

/-- The fraction field: the first j binary digits of the fraction of a. -/
def fxFraction (j : Nat) (a : ℚ) : Nat := ⌊(a - ⌊a⌋₊) * 2 ^ j⌋₊

/-- The digits FXENC gives for (neg, a): the sign of the whole value, the integer field, the fraction field. -/
def fxBits (k j : Nat) (neg : Bool) (a : ℚ) : BitString :=
  decide (neg = true ∧ 0 < a) :: (bin k ⌊a⌋₊ ++ bin j (fxFraction j a))

theorem fxFraction_lt {a : ℚ} (ha : 0 ≤ a) (j : Nat) : fxFraction j a < 2 ^ j := by
  have hfrac : a - ⌊a⌋₊ < 1 := sub_lt_iff_lt_add'.2 (Nat.lt_floor_add_one a)
  have hpos : (0 : ℚ) < 2 ^ j := by positivity
  rw [fxFraction, Nat.floor_lt (mul_nonneg (sub_nonneg.2 (Nat.floor_le ha)) hpos.le)]
  push_cast
  exact mul_lt_of_lt_one_left hpos hfrac

theorem floor_lt_two_pow {a : ℚ} (ha : 0 ≤ a) {k : Nat} (hlt : a < 2 ^ k) : ⌊a⌋₊ < 2 ^ k := by
  rw [Nat.floor_lt ha]
  exact_mod_cast hlt

/-- The integer and the fraction field together count a in units of 2^-j, truncated. -/
theorem floor_mul_add_fxFraction {a : ℚ} (ha : 0 ≤ a) (j : Nat) : ⌊a⌋₊ * 2 ^ j + fxFraction j a = ⌊a * 2 ^ j⌋₊ := by
  have hnonneg : 0 ≤ (a - ⌊a⌋₊) * 2 ^ j := mul_nonneg (sub_nonneg.2 (Nat.floor_le ha)) (by positivity)
  rw [fxFraction, add_comm, ← Nat.floor_add_natCast hnonneg]
  congr 1
  push_cast
  ring

theorem length_fxBits (k j : Nat) (neg : Bool) (a : ℚ) : (fxBits k j neg a).length = k + j + 1 := by
  simp [fxBits]

theorem unsigned_fxBits {k j : Nat} {a : ℚ} (neg : Bool) (ha : 0 ≤ a) (hlt : a < 2 ^ k) :
    unsigned (fxBits k j neg a) = (if neg = true ∧ 0 < a then 2 ^ (k + j) else 0) + ⌊a⌋₊ * 2 ^ j + fxFraction j a := by
  simp [fxBits, unsigned_pattern _ (floor_lt_two_pow ha hlt) (fxFraction_lt ha j)]

/-! ### FXENC on its operand -/

theorem fxFraction_natCast_div (num : Nat) {den : Nat} (hden : 0 < den) (j : Nat) :
    fxFraction j ((num : ℚ) / den) = num % den * 2 ^ j / den := by
  have hfrac : (num : ℚ) / den - (num / den : ℕ) = ((num % den : ℕ) : ℚ) / den := by
    have hnum : (num : ℚ) = den * (num / den : ℕ) + (num % den : ℕ) := by exact_mod_cast (Nat.div_add_mod num den).symm
    field_simp
    linarith
  rw [fxFraction, floor_natCast_div, hfrac, ← floor_natCast_div]
  congr 1
  push_cast
  ring

theorem decText_nonneg {t : Text} {neg : Bool} {a : ℚ} (h : DecText t neg a) : 0 ≤ a := by
  obtain ⟨_, num, scale, -, -, rfl⟩ := (decText_iff t neg a).1 h
  positivity

theorem parseDec_eq_none {t : Text} (hno : ¬∃ neg a, DecText t neg a) : parseDec t = none := by
  by_contra hsome
  obtain ⟨d, hd⟩ := Option.ne_none_iff_exists'.1 hsome
  exact hno ⟨d.neg, _, (parseDecFollowsItsGrammar _ _ _).1 ⟨d, hd, rfl, rfl⟩⟩

theorem parseBits_eq_none {t : Text} (hno : ¬∃ bs, BitText t bs) : parseBits t = none := by
  by_contra hsome
  obtain ⟨bs, hbs⟩ := Option.ne_none_iff_exists'.1 hsome
  exact hno ⟨bs, (parseBitsFollowsItsGrammar _ _).1 hbs⟩

/-- FXENC on a decimal (rule R142). -/
theorem fxenc_of_decText {k j : Nat} (hk : 1 ≤ k) (hj : 1 ≤ j) (h64 : k + j + 1 ≤ 64) {t : Text} {neg : Bool} {a : ℚ}
    (ht : DecText t neg a) :
    fxenc k j t = if (2 : ℚ) ^ k ≤ a then .raise .widthOverflow else .done (.bits (fxBits k j neg a)) := by
  obtain ⟨d, hd, rfl, rfl⟩ := (parseDecFollowsItsGrammar _ _ _).2 ht
  obtain ⟨den, hden, hcast, hpos⟩ : ∃ den : ℕ, 10 ^ d.scale = den ∧ (10 : ℚ) ^ d.scale = den ∧ 0 < den :=
    ⟨10 ^ d.scale, rfl, by push_cast; rfl, by positivity⟩
  have hlarge : d.num / den ≥ 2 ^ k ↔ (2 : ℚ) ^ k ≤ d.num / den := by
    rw [ge_iff_le, ← floor_natCast_div, Nat.le_floor_iff (by positivity)]
    push_cast
    rfl
  have hsign : 0 < (d.num : ℚ) / den ↔ d.num > 0 := by
    rw [div_pos_iff_of_pos_right (by positivity), Nat.cast_pos]
  rw [fxenc, if_neg (fixedPoint_legal hk hj h64), hd]
  simp only [hden, hcast, fxBits, hlarge, hsign, fxFraction_natCast_div _ hpos, floor_natCast_div]

/-- Settles O43: on a decimal FXENC overflows from 2^k on, and below it the pattern's value is that of the three fields. -/
theorem fxencFollowsItsRule : Obligations.FxencFollowsItsRule := by
  intro w k j s
  refine ⟨(fields_encode (.fxenc w k j)).1, fun hbad => ?_, fun hk hj h64 hno => ?_, fun neg a hk hj h64 ht =>
    ⟨fun hlarge => ?_, fun hlt => ?_⟩⟩
  · exact answers_isError (e := .invalidParameters) (if_pos ((badFixedPoint_iff k j).2 hbad))
  · refine answers_isError (e := .invalidFormat) ?_
    rw [replyOf, fxenc, if_neg (fixedPoint_legal hk hj h64), parseDec_eq_none hno]
  · exact answers_isError (e := .widthOverflow) ((fxenc_of_decText hk hj h64 ht).trans (if_pos hlarge))
  · exact answers_isBits ((fxenc_of_decText hk hj h64 ht).trans (if_neg (not_le.2 hlt))) (length_fxBits k j neg a)
      (unsigned_fxBits neg (decText_nonneg ht) hlt)

/-! ### FXDEC -/

/-- The magnitude FXDEC reads from a sign digit and two fields (rule R140). -/
theorem fixedPointMag_fields (b : Bool) (ip fb : BitString) :
    fixedPointMag ip.length fb.length (b :: (ip ++ fb)) =
      { sig := unsigned ip * 2 ^ fb.length + unsigned fb, exp := -(fb.length : ℤ) } := by
  rw [fixedPointMag, slice_first, slice_second]

/-- FXDEC on a digit string of its layout answers the sign digit and the value of the two fields (rule R144). -/
theorem fxdec_answers {w k j : Nat} {s : State} {b : Bool} {ip fb : BitString} (hk : 1 ≤ k) (hj : 1 ≤ j)
    (h64 : k + j + 1 ≤ 64) (ht : BitText s.operand (b :: (ip ++ fb))) (hip : ip.length = k) (hfb : fb.length = j) :
    Answers (.fxdec w k j) s (IsNum b ((unsigned ip : ℚ) + (unsigned fb : ℚ) / 2 ^ j)) := by
  subst hip hfb
  have hlen : (b :: (ip ++ fb)).length = ip.length + fb.length + 1 := by simp
  have hreply := fxdec_of_bitText hk hj hlen (hlen.trans_le h64) ht
  rw [digit_zero, fixedPointMag_fields] at hreply
  have hvalue : ((unsigned ip * 2 ^ fb.length + unsigned fb : ℕ) : ℚ) * 2 ^ (-(fb.length : ℤ)) =
      (unsigned ip : ℚ) + (unsigned fb : ℚ) / 2 ^ fb.length := by
    push_cast
    rw [zpow_neg, zpow_natCast]
    field_simp
  exact hvalue ▸ answers_isNum (i := .fxdec w ip.length fb.length) hreply

/-- Settles O44: the parameters, the format and the length are checked in this order, then the two fields are read. -/
theorem fxdecFollowsItsRule : Obligations.FxdecFollowsItsRule := by
  intro w k j s
  refine ⟨(fields_encode (.fxdec w k j)).1, fun hbad => ?_, fun hk hj h64 hno => ?_, fun bs hk hj h64 ht hlen => ?_,
    fun b ip fb hk hj h64 ht hip hfb => ?_⟩
  · exact answers_isError (e := .invalidParameters) (if_pos ((badFixedPoint_iff k j).2 hbad))
  · refine answers_isError (e := .invalidFormat) ?_
    rw [replyOf, fxdec, if_neg (fixedPoint_legal hk hj h64), parseBits_eq_none hno]
  · refine answers_isError (e := .widthMismatch) ?_
    rw [replyOf, fxdec, if_neg (fixedPoint_legal hk hj h64), (parseBitsFollowsItsGrammar _ _).2 ht]
    exact if_pos hlen
  · rw [← unsigned_eq_uValue, ← unsigned_eq_uValue]
    exact fxdec_answers hk hj h64 ht hip hfb

/-! ### Encode, then decode (rule R145) -/

/-- The magnitude a truncated to j fraction digits. -/
def truncated (j : Nat) (a : ℚ) : ℚ := (⌊a * 2 ^ j⌋₊ : ℚ) / 2 ^ j

theorem fields_eq_truncated {a : ℚ} (ha : 0 ≤ a) (j : Nat) : (⌊a⌋₊ : ℚ) + (fxFraction j a : ℚ) / 2 ^ j = truncated j a := by
  rw [truncated, ← floor_mul_add_fxFraction ha]
  push_cast
  field_simp

theorem truncated_le {a : ℚ} (ha : 0 ≤ a) (j : Nat) : truncated j a ≤ a := by
  rw [truncated, div_le_iff₀ (by positivity)]
  exact Nat.floor_le (by positivity)

theorem lt_truncated_add (j : Nat) (a : ℚ) : a < truncated j a + 1 / 2 ^ j := by
  rw [truncated, ← add_div, lt_div_iff₀ (by positivity)]
  exact Nat.lt_floor_add_one _

theorem truncated_eq_iff {a : ℚ} (ha : 0 ≤ a) (j : Nat) : truncated j a = a ↔ ∃ z : ℤ, a * 2 ^ j = z := by
  rw [truncated, div_eq_iff (by positivity)]
  constructor
  · exact fun h => ⟨⌊a * 2 ^ j⌋₊, by rw [← h]; simp⟩
  · rintro ⟨z, hz⟩
    have hz0 : (0 : ℚ) ≤ z := hz ▸ by positivity
    obtain ⟨n, rfl⟩ := Int.eq_ofNat_of_zero_le (Int.cast_nonneg_iff.1 hz0)
    simp [hz]

/-- Settles O46: FXDEC reads the sign digit and the two fields that FXENC wrote, whose value is a truncated. -/
theorem fixedPointTruncationBound : Obligations.FixedPointTruncationBound := by
  intro w k j neg a s hk hj h64 ht hlt
  have ha := decText_nonneg ht
  have hreply : replyOf (.fxenc w k j) s.operand = .done (.bits (fxBits k j neg a)) :=
    (fxenc_of_decText hk hj h64 ht).trans (if_neg (not_le.2 hlt))
  obtain ⟨r, text, hexec, hrender, -, htext⟩ := exists_rendered_bits hreply
  refine ⟨r, text, truncated j a, hexec, hrender, truncated_le ha j, lt_truncated_add j a, truncated_eq_iff ha j, ?_⟩
  rintro t rfl
  have hnum := fxdec_answers (w := w) hk hj h64 htext (length_bin k _) (length_bin j _)
  rwa [unsigned_bin (floor_lt_two_pow ha hlt), unsigned_bin (fxFraction_lt ha j), fields_eq_truncated ha] at hnum

end Sys2Proof.Machine
end

/-! ## Proofs of the IEEE-754 family (42_ieee754.md) -/

section
namespace Sys2Proof.Machine

open Sys2Proof.Safety

/-! ### The instructions of a layout -/

/-- Two instructions, with their operation codes, that encode and decode one layout, whose fields are not empty
(rules R14, R163, R169). -/
structure IeeeCodec (l : Config.Layout) (encOpc decOpc : BitVec 4) (enc dec : Nat → Nat → Nat → Instr) : Prop where
  c_pos : 1 ≤ l.c
  m_pos : 1 ≤ l.m
  opc_enc : ∀ w k j, opcField (encode (enc w k j)) = encOpc
  opc_dec : ∀ w k j, opcField (encode (dec w k j)) = decOpc
  replyOf_enc : ∀ w k j t, replyOf (enc w k j) t = fenc l Config.negZeroSign w t
  replyOf_dec : ∀ w k j t, replyOf (dec w k j) t = fdec l t

theorem f32Codec : IeeeCodec ⟨8, 23, 127⟩ 0xA#4 0xB#4 .f32enc .f32dec :=
  ⟨by decide, by decide, fun _ _ _ => (fields_encode _).1, fun _ _ _ => (fields_encode _).1, fun _ _ _ _ => rfl,
    fun _ _ _ _ => rfl⟩

theorem f64Codec : IeeeCodec ⟨11, 52, 1023⟩ 0xC#4 0xD#4 .f64enc .f64dec :=
  ⟨by decide, by decide, fun _ _ _ => (fields_encode _).1, fun _ _ _ => (fields_encode _).1, fun _ _ _ _ => rfl,
    fun _ _ _ _ => rfl⟩

/-- An instruction whose reply is INF answers with the sign tag. -/
theorem answers_isInf {i : Instr} {s : State} {neg : Bool} (h : replyOf i s.operand = .done (.inf neg)) :
    Answers i s (IsInf neg) := by
  rw [answers_iff, h]
  exact isInf_done neg

theorem answers_isNan {i : Instr} {s : State} (h : replyOf i s.operand = .done .nan) : Answers i s IsNan := by
  rw [answers_iff, h]
  exact isNan_done

/-! ### Patterns -/

/-- The pattern of a sign digit and the numbers in the two fields (rule R160). -/
def ieeePattern (l : Config.Layout) (neg : Bool) (x y : Nat) : BitString := neg :: (bin l.c x ++ bin l.m y)

theorem length_ieeePattern (l : Config.Layout) (neg : Bool) (x y : Nat) :
    (ieeePattern l neg x y).length = 1 + l.c + l.m := by
  rw [ieeePattern, List.length_cons, List.length_append, length_bin, length_bin]
  omega

theorem infPattern_eq (l : Config.Layout) (neg : Bool) : infPattern l neg = ieeePattern l neg l.emax 0 := rfl

theorem nanPattern_eq (l : Config.Layout) : nanPattern l = ieeePattern l false l.emax (2 ^ (l.m - 1)) := rfl

theorem zeroPattern_eq (l : Config.Layout) (z neg : Bool) : zeroPattern l z neg = ieeePattern l (z && neg) 0 0 := by
  have hwidth : l.width - 1 = l.c + l.m := by
    rw [Config.Layout.width]
    omega
  rw [zeroPattern, hwidth, bin_split, Nat.zero_div, ieeePattern]

theorem uValue_lt (bs : BitString) : uValue bs < 2 ^ bs.length := unsigned_eq_uValue bs ▸ unsigned_lt bs

theorem uValue_fields {c m : Nat} {b : Bool} {es ms : BitString} (hes : es.length = c) (hms : ms.length = m) :
    uValue (b :: (es ++ ms)) = (if b then 2 ^ (c + m) else 0) + uValue es * 2 ^ m + uValue ms := by
  have hx : uValue es < 2 ^ c := hes ▸ uValue_lt es
  have hy : uValue ms < 2 ^ m := hms ▸ uValue_lt ms
  rw [← unsigned_pattern b hx hy, ← unsigned_eq_uValue es, ← unsigned_eq_uValue ms, ← hes, ← hms, bin_unsigned,
    bin_unsigned, unsigned_eq_uValue]

theorem emax_lt (l : Config.Layout) : l.emax < 2 ^ l.c := Nat.sub_lt (by positivity) one_pos

theorem emax_cast (l : Config.Layout) : (l.emax : ℤ) = 2 ^ l.c - 1 := by
  rw [Config.Layout.emax]
  push_cast [Nat.one_le_two_pow]
  rfl

theorem emax_pos {l : Config.Layout} (hc : 1 ≤ l.c) : 0 < l.emax := Nat.sub_pos_of_lt (Nat.one_lt_two_pow (by omega))

theorem quietBit_lt {m : Nat} (hm : 1 ≤ m) : 2 ^ (m - 1) < 2 ^ m := Nat.pow_lt_pow_right (by decide) (by omega)

/-! ### The exponent and the mantissa of a magnitude (rule R163) -/

/-- The mantissa field of a in the binade of 2^e. -/
def ieeeMantissa (m : Nat) (a : ℚ) (e : ℤ) : Nat := ⌊(a / 2 ^ e - 1) * 2 ^ m⌋₊

/-- The number with the leading digit 1 at 2^e and the m digits of y behind it. -/
def normalized (m y : Nat) (e : ℤ) : ℚ := (2 ^ m + y) * 2 ^ (e - m)

theorem two_zpow_le_iff {a : ℚ} {e : ℤ} (hlow : (2 : ℚ) ^ e ≤ a) (hhigh : a < 2 ^ (e + 1)) (n : ℤ) :
    (2 : ℚ) ^ n ≤ a ↔ n ≤ e := by
  constructor
  · intro hn
    exact Int.lt_add_one_iff.1 ((zpow_lt_zpow_iff_right₀ one_lt_two).1 (hn.trans_lt hhigh))
  · exact fun hn => (zpow_le_zpow_right₀ one_le_two hn).trans hlow

theorem ieeeMantissa_eq_zero_iff (m : Nat) (a : ℚ) (e : ℤ) :
    ieeeMantissa m a e = 0 ↔ a < 2 ^ e * (1 + 1 / 2 ^ m) := by
  rw [ieeeMantissa, Nat.floor_eq_zero, ← lt_div_iff₀ (by positivity), sub_lt_iff_lt_add', div_lt_iff₀' (by positivity)]

theorem normalized_bounds {m y : Nat} (hy : y < 2 ^ m) (e : ℤ) :
    (2 : ℚ) ^ e ≤ normalized m y e ∧ normalized m y e < 2 ^ (e + 1) := by
  have hunit : (0 : ℚ) < 2 ^ (e - m) := by positivity
  have hy' : (y : ℚ) < 2 ^ m := by exact_mod_cast hy
  have he : (2 : ℚ) ^ e = 2 ^ m * 2 ^ (e - m) := by
    rw [← zpow_natCast, ← zpow_add₀ two_ne_zero]
    congr 1
    ring
  rw [zpow_add_one₀ two_ne_zero, he, normalized]
  constructor
  · exact mul_le_mul_of_nonneg_right (le_add_of_nonneg_right y.cast_nonneg) hunit.le
  · rw [mul_right_comm, mul_two]
    exact mul_lt_mul_of_pos_right (add_lt_add_right hy' _) hunit

theorem ieeeMantissa_normalized (m y : Nat) (e : ℤ) : ieeeMantissa m (normalized m y e) e = y := by
  have hval : (normalized m y e / 2 ^ e - 1) * 2 ^ m = y := by
    rw [normalized, zpow_sub₀ two_ne_zero, zpow_natCast]
    field_simp
    ring
  rw [ieeeMantissa, hval, Nat.floor_natCast]

/-! ### The encoder on each kind of operand (rule R163) -/

/-- The exponent and the mantissa for which the encoder overflows. -/
abbrev OutOfRange (l : Config.Layout) (eb : ℤ) (mant : Nat) : Prop :=
  2 ^ l.c - 1 ≤ eb ∨ eb < 0 ∨ (eb = 0 ∧ mant = 0)

section Encode
variable {l : Config.Layout} {z neg : Bool} {t : Text}

theorem fenc_of_infText (h : InfText t neg) : fenc l z l.width t = .done (.bits (infPattern l neg)) := by
  rw [fenc, if_neg (not_not.2 rfl), (parseFloat_eq_infv t neg).2 h]

theorem fenc_of_nanText (h : NanText t neg) : fenc l z l.width t = .done (.bits (nanPattern l)) := by
  rw [fenc, if_neg (not_not.2 rfl), (parseFloat_eq_nanv t neg).2 h]

theorem fenc_of_decText_zero (h : DecText t neg 0) : fenc l z l.width t = .done (.bits (zeroPattern l z neg)) := by
  obtain ⟨d, hd, rfl, ha⟩ := (parseDecFollowsItsGrammar _ _ _).2 h
  have hnum : d.num = 0 := by simpa using ha
  rw [fenc, if_neg (not_not.2 rfl), (parseFloat_eq_fin t d).2 hd]
  exact if_pos hnum

/-- On a magnitude a with 2^e <= a < 2^(e + 1) the model computes e and its mantissa. -/
theorem fenc_of_decText {a : ℚ} {e : ℤ} (h : DecText t neg a) (hlow : (2 : ℚ) ^ e ≤ a) (hhigh : a < 2 ^ (e + 1)) :
    fenc l z l.width t =
      if OutOfRange l (e + l.bias) (ieeeMantissa l.m a e) then .raise .widthOverflow
      else .done (.bits (ieeePattern l neg (e + l.bias).toNat (ieeeMantissa l.m a e))) := by
  obtain ⟨d, hd, rfl, rfl⟩ := (parseDecFollowsItsGrammar _ _ _).2 h
  obtain ⟨den, hden, hcast, hpos⟩ : ∃ den : ℕ, 10 ^ d.scale = den ∧ (10 : ℚ) ^ d.scale = den ∧ 0 < den :=
    ⟨10 ^ d.scale, rfl, by push_cast; rfl, by positivity⟩
  rw [hcast] at hlow hhigh ⊢
  have hnum : 0 < d.num := by
    rw [Nat.pos_iff_ne_zero]
    intro h0
    rw [h0, Nat.cast_zero, zero_div] at hlow
    exact hlow.not_gt (by positivity)
  obtain ⟨hlow', hhigh'⟩ := exponentOf_spec hnum hpos
  have hexp : exponentOf d.num den = e := exponent_unique hlow' hhigh' hlow hhigh
  have hmant : mantissaOf l.m d.num den e = ieeeMantissa l.m (d.num / den) e := mantissaOf_eq hpos hlow
  rw [fenc, if_neg (not_not.2 rfl), (parseFloat_eq_fin t d).2 hd]
  simp only [hnum.ne', if_false, fencFinite, hden, hexp, hmant, ge_iff_le, emax_cast, ieeePattern]

theorem fenc_of_no_float (hinf : ¬∃ neg, InfText t neg) (hnan : ¬∃ neg, NanText t neg)
    (hdec : ¬∃ neg a, DecText t neg a) :
    fenc l z l.width t = .raise .invalidFormat := by
  rw [fenc, if_neg (not_not.2 rfl)]
  rcases h : parseFloat t with _ | (neg | neg | d)
  · rfl
  · exact absurd ⟨neg, (parseFloat_eq_infv t neg).1 h⟩ hinf
  · exact absurd ⟨neg, (parseFloat_eq_nanv t neg).1 h⟩ hnan
  · rw [parseFloat_eq_fin, parseDec_eq_none hdec] at h
    cases h

/-- What the encoder can reply at its own width: an error or a bit string. -/
theorem fenc_cases (l : Config.Layout) (z : Bool) (t : Text) :
    (∃ e, e ≠ .ok ∧ fenc l z l.width t = .raise e) ∨ ∃ bs, fenc l z l.width t = .done (.bits bs) := by
  by_cases hinf : ∃ neg, InfText t neg
  · obtain ⟨neg, h⟩ := hinf
    exact .inr ⟨_, fenc_of_infText h⟩
  by_cases hnan : ∃ neg, NanText t neg
  · obtain ⟨neg, h⟩ := hnan
    exact .inr ⟨_, fenc_of_nanText h⟩
  by_cases hdec : ∃ neg a, DecText t neg a
  · obtain ⟨neg, a, h⟩ := hdec
    rcases (decText_nonneg h).eq_or_lt with rfl | hpos
    · exact .inr ⟨_, fenc_of_decText_zero h⟩
    · obtain ⟨e, hlow, hhigh⟩ := exists_mem_Ico_zpow hpos one_lt_two
      rw [fenc_of_decText h hlow hhigh]
      split_ifs
      · exact .inl ⟨_, by decide, rfl⟩
      · exact .inr ⟨_, rfl⟩
  · exact .inl ⟨_, by decide, fenc_of_no_float hinf hnan hdec⟩

end Encode

/-- When the encoder succeeds its exponent field is none of the ends. -/
theorem exponent_of_not_outOfRange {l : Config.Layout} {eb : ℤ} {mant : Nat} (h : ¬OutOfRange l eb mant) :
    ∃ x : Nat, eb = x ∧ x < l.emax ∧ ¬(x = 0 ∧ mant = 0) := by
  have := emax_cast l
  exact ⟨eb.toNat, by omega, by omega, by omega⟩

theorem unsigned_ieeePattern {l : Config.Layout} {x y : Nat} (neg : Bool) (hx : x < 2 ^ l.c) (hy : y < 2 ^ l.m) :
    unsigned (ieeePattern l neg x y) = (if neg then 2 ^ (l.c + l.m) else 0) + x * 2 ^ l.m + y :=
  unsigned_pattern neg hx hy

namespace IeeeCodec
variable {l : Config.Layout} {encOpc decOpc : BitVec 4} {enc dec : Nat → Nat → Nat → Instr}
  (hcodec : IeeeCodec l encOpc decOpc enc dec)
include hcodec

/-- An encoder whose reply is a pattern answers with its length and value. -/
theorem answers_pattern {k j : Nat} {s : State} {neg : Bool} {x y : Nat}
    (h : fenc l Config.negZeroSign l.width s.operand = .done (.bits (ieeePattern l neg x y))) (hx : x < 2 ^ l.c)
    (hy : y < 2 ^ l.m) :
    Answers (enc (1 + l.c + l.m) k j) s
      (IsBits (1 + l.c + l.m) ((if neg then 2 ^ (l.c + l.m) else 0) + x * 2 ^ l.m + y)) :=
  answers_isBits ((hcodec.replyOf_enc _ k j _).trans h) (length_ieeePattern l neg x y) (unsigned_ieeePattern neg hx hy)

section Answers
variable {k j : Nat} {s : State} {neg : Bool}

theorem enc_answers_inf (h : InfText s.operand neg) :
    Answers (enc (1 + l.c + l.m) k j) s
      (IsBits (1 + l.c + l.m) ((if neg then 2 ^ (l.c + l.m) else 0) + (2 ^ l.c - 1) * 2 ^ l.m)) :=
  hcodec.answers_pattern (fenc_of_infText h) (emax_lt l) (by positivity)

theorem enc_answers_nan (h : NanText s.operand neg) :
    Answers (enc (1 + l.c + l.m) k j) s (IsBits (1 + l.c + l.m) ((2 ^ l.c - 1) * 2 ^ l.m + 2 ^ (l.m - 1))) := by
  simpa [Config.Layout.emax] using hcodec.answers_pattern (fenc_of_nanText h) (emax_lt l) (quietBit_lt hcodec.m_pos)

theorem enc_answers_zero (h : DecText s.operand neg 0) :
    Answers (enc (1 + l.c + l.m) k j) s
      (IsBits (1 + l.c + l.m) (if Config.negZeroSign = true ∧ neg = true then 2 ^ (l.c + l.m) else 0)) := by
  have hreply := fenc_of_decText_zero (l := l) (z := Config.negZeroSign) h
  rw [zeroPattern_eq] at hreply
  simpa using hcodec.answers_pattern hreply (by positivity) (by positivity)

variable {a : ℚ} {e : ℤ}

theorem enc_answers_overflow (h : DecText s.operand neg a) (hlow : (2 : ℚ) ^ e ≤ a) (hhigh : a < 2 ^ (e + 1))
    (hout : OutOfRange l (e + l.bias) (ieeeMantissa l.m a e)) :
    Answers (enc (1 + l.c + l.m) k j) s (IsError 4) :=
  answers_isError (e := .widthOverflow)
    ((hcodec.replyOf_enc _ k j _).trans ((fenc_of_decText h hlow hhigh).trans (if_pos hout)))

theorem enc_answers_finite (h : DecText s.operand neg a) (hlow : (2 : ℚ) ^ e ≤ a) (hhigh : a < 2 ^ (e + 1))
    (hin : ¬OutOfRange l (e + l.bias) (ieeeMantissa l.m a e)) :
    Answers (enc (1 + l.c + l.m) k j) s
      (IsBits (1 + l.c + l.m)
        ((if neg then 2 ^ (l.c + l.m) else 0) + (e + l.bias).toNat * 2 ^ l.m + ieeeMantissa l.m a e)) := by
  obtain ⟨x, hx, hlt, -⟩ := exponent_of_not_outOfRange hin
  exact hcodec.answers_pattern ((fenc_of_decText h hlow hhigh).trans (if_neg hin))
    (by rw [hx]; exact hlt.trans (emax_lt l)) (mantissa_lt hlow hhigh)

end Answers

/-- Rule R163 for a codec: the width, the format, then each kind of operand. -/
theorem fencRule : FencRule l encOpc enc := by
  intro w k j s
  refine ⟨hcodec.opc_enc w k j, fun hw => ?_, ?_⟩
  · exact answers_isError (e := .unsupportedWidth) ((hcodec.replyOf_enc w k j _).trans (if_pos hw))
  rintro rfl
  refine ⟨fun ⟨hinf, hnan, hdec⟩ => ?_, fun _ => hcodec.enc_answers_inf, fun _ => hcodec.enc_answers_nan,
    fun _ => hcodec.enc_answers_zero, ?_⟩
  · exact answers_isError (e := .invalidFormat)
      ((hcodec.replyOf_enc _ k j _).trans (fenc_of_no_float hinf hnan hdec))
  · rintro neg a e eb mant ht - hlow hhigh rfl rfl
    exact ⟨hcodec.enc_answers_overflow ht hlow hhigh, hcodec.enc_answers_finite ht hlow hhigh⟩

end IeeeCodec

/-- Settles O48: each kind of operand has its pattern, and for a finite value the model computes the exponent and
mantissa of the rule. -/
theorem fencFollowsItsRule : Obligations.FencFollowsItsRule := ⟨f32Codec.fencRule, f64Codec.fencRule⟩

/-! ### The finite range of the encoder (rule R165) -/

section Range
variable {a : ℚ} {e : ℤ}

/-- Below 2^-bias * (1 + 2^-m) the exponent field would be negative, or both fields 0. -/
theorem lt_smallest_iff (hlow : (2 : ℚ) ^ e ≤ a) (hhigh : a < 2 ^ (e + 1)) (m : Nat) (bias : ℤ) :
    a < 2 ^ (-bias) * (1 + 1 / 2 ^ m) ↔ e + bias < 0 ∨ (e + bias = 0 ∧ ieeeMantissa m a e = 0) := by
  rcases lt_trichotomy e (-bias) with h | rfl | h
  · have hle : a < 2 ^ (-bias) := hhigh.trans_le (zpow_le_zpow_right₀ one_le_two h)
    have hone : (2 : ℚ) ^ (-bias) ≤ 2 ^ (-bias) * (1 + 1 / 2 ^ m) :=
      le_mul_of_one_le_right (by positivity) (le_add_of_nonneg_right (by positivity))
    exact iff_of_true (hle.trans_le hone) (.inl (by omega))
  · simp [ieeeMantissa_eq_zero_iff]
  · have hle : (2 : ℚ) ^ (-bias + 1) ≤ a := (zpow_le_zpow_right₀ one_le_two h).trans hlow
    have htwo : (2 : ℚ) ^ (-bias) * (1 + 1 / 2 ^ m) ≤ 2 ^ (-bias + 1) := by
      have hone : (1 : ℚ) / 2 ^ m ≤ 1 := div_le_one_of_le₀ (one_le_pow₀ one_le_two) (by positivity)
      rw [zpow_add_one₀ two_ne_zero]
      exact mul_le_mul_of_nonneg_left (by linarith) (by positivity)
    exact iff_of_false (not_lt.2 (htwo.trans hle)) (by omega)

theorem outOfRange_iff (hlow : (2 : ℚ) ^ e ≤ a) (hhigh : a < 2 ^ (e + 1)) (l : Config.Layout) :
    OutOfRange l (e + l.bias) (ieeeMantissa l.m a e) ↔
      (2 : ℚ) ^ ((2 ^ l.c - 1 : ℤ) - l.bias) ≤ a ∨ a < (2 : ℚ) ^ (-(l.bias : ℤ)) * (1 + 1 / 2 ^ l.m) := by
  rw [two_zpow_le_iff hlow hhigh, sub_le_iff_le_add, lt_smallest_iff hlow hhigh]

end Range

/-- Rule R165 for a codec: the two thresholds, and the binade whose exponent field is 0. -/
theorem IeeeCodec.fencRange {l : Config.Layout} {encOpc decOpc : BitVec 4} {enc dec : Nat → Nat → Nat → Instr}
    (hcodec : IeeeCodec l encOpc decOpc enc dec) : FencRange l enc := by
  intro k j neg a s ht hpos
  constructor
  · obtain ⟨e, hlow, hhigh⟩ := exists_mem_Ico_zpow hpos one_lt_two
    rw [← outOfRange_iff hlow hhigh]
    refine ⟨fun herr => ?_, hcodec.enc_answers_overflow ht hlow hhigh⟩
    by_contra hin
    exact not_isBits_of_isError (by decide) herr (hcodec.enc_answers_finite ht hlow hhigh hin)
  · intro hsmall hlarge
    have hlow : (2 : ℚ) ^ (-(l.bias : ℤ)) ≤ a :=
      (le_mul_of_one_le_right (by positivity) (le_add_of_nonneg_right (by positivity))).trans hsmall
    have hhigh : a < (2 : ℚ) ^ (-(l.bias : ℤ) + 1) := by rwa [neg_add_eq_sub]
    have hmant : ieeeMantissa l.m a (-l.bias) ≠ 0 := mt (ieeeMantissa_eq_zero_iff _ _ _).1 hsmall.not_gt
    have hin : ¬OutOfRange l (-l.bias + l.bias) (ieeeMantissa l.m a (-l.bias)) := by
      have := emax_cast l
      have := emax_pos hcodec.c_pos
      omega
    refine ⟨_, Nat.pos_of_ne_zero hmant, mantissa_lt hlow hhigh, ?_⟩
    simpa using hcodec.enc_answers_finite ht hlow hhigh hin

/-- Settles O50: in terms of the value, the exponent and mantissa that overflow lie beyond the two thresholds. -/
theorem fencFiniteRange : Obligations.FencFiniteRange := ⟨f32Codec.fencRange, f64Codec.fencRange⟩

/-! ### The decoder (rule R169) -/

section Decode
variable {l : Config.Layout} {b : Bool} {es ms : BitString}

theorem exponentField_fields (hes : es.length = l.c) : exponentField l (b :: (es ++ ms)) = uValue es := by
  rw [exponentField, ← hes, slice_first, unsigned_eq_uValue]

theorem mantissaField_fields (hes : es.length = l.c) (hms : ms.length = l.m) :
    mantissaField l (b :: (es ++ ms)) = uValue ms := by
  rw [mantissaField, ← hes, ← hms, slice_second, unsigned_eq_uValue]

/-- The four cases of rule R169, in the source's order (rule R170). -/
theorem classify_fields (hes : es.length = l.c) (hms : ms.length = l.m) :
    classify l (b :: (es ++ ms)) =
      if uValue es = 2 ^ l.c - 1 ∧ uValue ms = 0 then .inf b
      else if uValue es = 2 ^ l.c - 1 then .nan
      else if uValue es = 0 ∧ uValue ms = 0 then .num b { sig := 0, exp := 0 }
      else .num b { sig := 2 ^ l.m + uValue ms, exp := (uValue es : ℤ) - l.bias - l.m } := by
  simp only [classify, digit_zero, exponentField_fields hes, mantissaField_fields hes hms, Config.Layout.emax]

theorem fdec_of_fields {t : Text} (ht : BitText t (b :: (es ++ ms))) (hes : es.length = l.c) (hms : ms.length = l.m) :
    fdec l t = .done (classify l (b :: (es ++ ms))) := by
  have hlen : (b :: (es ++ ms)).length = l.width := by
    rw [List.length_cons, List.length_append, hes, hms, Config.Layout.width]
    omega
  rw [fdec, (parseBitsFollowsItsGrammar _ _).2 ht]
  exact if_neg (not_not.2 hlen)

end Decode

/-- Rule R169 for a codec: the format, the length, then the case of the two fields. -/
theorem IeeeCodec.fdecRule {l : Config.Layout} {encOpc decOpc : BitVec 4} {enc dec : Nat → Nat → Nat → Instr}
    (hcodec : IeeeCodec l encOpc decOpc enc dec) : FdecRule l decOpc dec := by
  intro w k j s
  refine ⟨hcodec.opc_dec w k j, fun hno => ?_, fun bs ht hlen => ?_, ?_⟩
  · refine answers_isError (e := .invalidFormat) ?_
    rw [hcodec.replyOf_dec, fdec, parseBits_eq_none hno]
  · refine answers_isError (e := .widthMismatch) ?_
    rw [hcodec.replyOf_dec, fdec, (parseBitsFollowsItsGrammar _ _).2 ht]
    exact if_pos hlen
  rintro b es ms e m ht hes hms rfl rfl
  have hreply := (hcodec.replyOf_dec w k j _).trans (fdec_of_fields ht hes hms)
  have hemax : 0 < 2 ^ l.c - 1 := emax_pos hcodec.c_pos
  rw [classify_fields hes hms] at hreply
  refine ⟨fun he hm => ?_, fun he hm => ?_, fun he hm => ?_, fun he hzero => ?_⟩
  · rw [if_pos ⟨he, hm⟩] at hreply
    exact answers_isInf hreply
  · rw [if_neg (fun h => hm h.2), if_pos he] at hreply
    exact answers_isNan hreply
  · rw [if_neg (by omega), if_neg (by omega), if_pos ⟨he, hm⟩] at hreply
    simpa using answers_isNum hreply
  · rw [if_neg (fun h => he h.1), if_neg he, if_neg hzero] at hreply
    simpa using answers_isNum hreply

/-- Settles O49: the model classifies a pattern by the values of its two fields, in the order of the rule. -/
theorem fdecFollowsItsRule : Obligations.FdecFollowsItsRule := ⟨f32Codec.fdecRule, f64Codec.fdecRule⟩

/-! ### Encode, then decode (rules R174, R176) -/

/-- The leading 1 and the mantissa of a are a / 2^e truncated to m fraction digits. -/
theorem normalized_ieeeMantissa {a : ℚ} {e : ℤ} (hlow : (2 : ℚ) ^ e ≤ a) (m : Nat) :
    normalized m (ieeeMantissa m a e) e = truncated m (a / 2 ^ e) * 2 ^ e := by
  have hone : 1 ≤ a / 2 ^ e := by rwa [one_le_div (by positivity)]
  have hcount : ieeeMantissa m a e + 2 ^ m = ⌊a / 2 ^ e * 2 ^ m⌋₊ := by
    rw [ieeeMantissa, ← Nat.floor_add_natCast (mul_nonneg (sub_nonneg.2 hone) (by positivity))]
    congr 1
    push_cast
    ring
  rw [normalized, truncated, ← hcount, zpow_sub₀ two_ne_zero, zpow_natCast]
  push_cast
  ring

/-- a with its mantissa truncated lies within a unit of the last place below a, and is a only if a has no more digits. -/
theorem normalized_ieeeMantissa_bounds {a : ℚ} {e : ℤ} (hlow : (2 : ℚ) ^ e ≤ a) (m : Nat) :
    normalized m (ieeeMantissa m a e) e ≤ a ∧ a < normalized m (ieeeMantissa m a e) e + 2 ^ (e - m) ∧
      (normalized m (ieeeMantissa m a e) e = a ↔ ∃ z : ℤ, a * 2 ^ (m - e) = z) := by
  have hpos : (0 : ℚ) < 2 ^ e := by positivity
  have hscaled : 0 ≤ a / 2 ^ e := div_nonneg (hpos.le.trans hlow) hpos.le
  have hunit : (2 : ℚ) ^ (e - m) = 1 / 2 ^ m * 2 ^ e := by
    rw [zpow_sub₀ two_ne_zero, zpow_natCast]
    ring
  have hdigits : a * 2 ^ (m - e) = a / 2 ^ e * 2 ^ m := by
    rw [zpow_sub₀ two_ne_zero, zpow_natCast]
    ring
  rw [normalized_ieeeMantissa hlow, hunit, hdigits, ← add_mul, ← le_div_iff₀ hpos, ← div_lt_iff₀ hpos,
    ← eq_div_iff hpos.ne']
  exact ⟨truncated_le hscaled m, lt_truncated_add m _, truncated_eq_iff hscaled m⟩

namespace IeeeCodec
variable {l : Config.Layout} {encOpc decOpc : BitVec 4} {enc dec : Nat → Nat → Nat → Instr}
  (hcodec : IeeeCodec l encOpc decOpc enc dec)
include hcodec

/-- An encoder that answers OK has replied a bit string, and its text is a binary operand that means the same digits. -/
theorem exists_rendered_of_ok {k j : Nat} {s : State} {r : Rsp}
    (hexec : exec (enc (1 + l.c + l.m) k j) s = .next { s with rsp := r }) (hok : r.rspStatus = 0) :
    ∃ bs text, fenc l Config.negZeroSign l.width s.operand = .done (.bits bs) ∧ render r.result = some text ∧
      BitText text bs := by
  have hreply := hcodec.replyOf_enc (1 + l.c + l.m) k j s.operand
  obtain rfl : r = Rsp.ofReply (replyOf (enc (1 + l.c + l.m) k j) s.operand) := congrArg State.rsp (exec_next hexec)
  rcases fenc_cases l Config.negZeroSign s.operand with ⟨e, he, hfail⟩ | ⟨bs, hbits⟩
  · rw [hreply.trans hfail] at hok
    exact absurd ((Status.code_eq_zero e).1 hok) he
  · obtain ⟨r, text, hexec', hrender, -, htext⟩ := exists_rendered_bits (hreply.trans hbits)
    obtain rfl := congrArg State.rsp (exec_next hexec')
    exact ⟨bs, text, hbits, hrender, htext⟩

/-- What the decoder reads from the digits of a pattern, by the four cases of rule R169. -/
theorem dec_answers_pattern (w k j : Nat) {t : State} {neg : Bool} {x y : Nat}
    (ht : BitText t.operand (ieeePattern l neg x y)) (hx : x < 2 ^ l.c) (hy : y < 2 ^ l.m) :
    (x = l.emax → y = 0 → Answers (dec w k j) t (IsInf neg)) ∧
      (x = l.emax → y ≠ 0 → Answers (dec w k j) t IsNan) ∧
      (x = 0 → y = 0 → Answers (dec w k j) t (IsNum neg 0)) ∧
      (x ≠ l.emax → ¬(x = 0 ∧ y = 0) → Answers (dec w k j) t (IsNum neg (normalized l.m y (x - l.bias)))) := by
  obtain ⟨-, -, -, hrule⟩ := hcodec.fdecRule w k j t
  have hes : uValue (bin l.c x) = x := by rw [← unsigned_eq_uValue, unsigned_bin hx]
  have hms : uValue (bin l.m y) = y := by rw [← unsigned_eq_uValue, unsigned_bin hy]
  exact hrule neg _ _ x y ht (length_bin _ _) (length_bin _ _) hes.symm hms.symm

/-- Rules R174 and R176 for a codec: the encoder's pattern is that of the operand's kind, and the decoder reads its
fields. -/
theorem encodeThenDecode : EncodeThenDecode l enc dec := by
  intro w k j s r hexec hok
  obtain ⟨bs, text, hreply, hrender, htext⟩ := hcodec.exists_rendered_of_ok hexec hok
  refine ⟨text, hrender, ?_⟩
  rintro t rfl
  refine ⟨fun neg a e hdec hlow hhigh => ?_, fun neg hdec => ?_, fun neg hinf => ?_, fun neg hnan => ?_⟩
  · rw [fenc_of_decText hdec hlow hhigh] at hreply
    split_ifs at hreply with hout
    · cases hreply
    · cases hreply
      obtain ⟨x, hx, hlt, hxy⟩ := exponent_of_not_outOfRange hout
      have he : (x : ℤ) - l.bias = e := by omega
      rw [hx, Int.toNat_natCast] at htext
      obtain ⟨-, -, -, hnum⟩ := hcodec.dec_answers_pattern w k j htext (hlt.trans (emax_lt l)) (mantissa_lt hlow hhigh)
      exact ⟨_, he ▸ hnum hlt.ne hxy, rfl, normalized_ieeeMantissa_bounds hlow l.m⟩
  · rw [fenc_of_decText_zero hdec, zeroPattern_eq] at hreply
    cases hreply
    obtain ⟨-, -, hzero, -⟩ := hcodec.dec_answers_pattern w k j htext (by positivity) (by positivity)
    exact hzero rfl rfl
  · rw [fenc_of_infText hinf, infPattern_eq] at hreply
    cases hreply
    obtain ⟨hans, -⟩ := hcodec.dec_answers_pattern w k j htext (emax_lt l) (by positivity)
    exact hans rfl rfl
  · rw [fenc_of_nanText hnan, nanPattern_eq] at hreply
    cases hreply
    obtain ⟨-, hans, -⟩ := hcodec.dec_answers_pattern w k j htext (emax_lt l) (quietBit_lt hcodec.m_pos)
    exact hans rfl (by positivity)

end IeeeCodec

/-- Settles O52: the decoder reads the fields that the encoder wrote, which for a finite value are the value truncated to M
fraction digits of its binade. -/
theorem ieeeEncodeThenDecode : Obligations.IeeeEncodeThenDecode :=
  ⟨f32Codec.encodeThenDecode, f64Codec.encodeThenDecode⟩

/-! ### Decode, then encode (rule R175) -/

section Rendered
variable {i : Instr} {s : State} {neg : Bool}

theorem exists_rendered_inf (h : Answers i s (IsInf neg)) :
    ∃ r text, exec i s = .next { s with rsp := r } ∧ render r.result = some text ∧ InfText text neg := by
  obtain ⟨r, hexec, hr⟩ := h
  exact ⟨r, _, hexec, congrArg render (result_of_isInf hr),
    .inl ⟨signText neg, wordInf, rfl, signText_spec neg, List.forall₂_same.2 fun _ _ => .inl rfl⟩⟩

theorem exists_rendered_nan (h : Answers i s IsNan) :
    ∃ r text, exec i s = .next { s with rsp := r } ∧ render r.result = some text ∧ NanText text false := by
  obtain ⟨r, hexec, hr⟩ := h
  exact ⟨r, _, hexec, congrArg render (result_of_isNan hr),
    signText false, wordNan, rfl, signText_spec false, List.forall₂_same.2 fun _ _ => .inl rfl⟩

theorem exists_rendered_num {q : ℚ} (h : Answers i s (IsNum neg q)) :
    ∃ r text, exec i s = .next { s with rsp := r } ∧ render r.result = some text ∧ DecText text neg q := by
  obtain ⟨r, hexec, hr⟩ := h
  obtain ⟨text, hrender, htext⟩ := renderedNumbersReadBackExactly r neg q hr
  exact ⟨r, text, hexec, hrender, htext⟩

end Rendered

namespace IeeeCodec
variable {l : Config.Layout} {encOpc decOpc : BitVec 4} {enc dec : Nat → Nat → Nat → Instr}
  (hcodec : IeeeCodec l encOpc decOpc enc dec)
include hcodec

/-- The encoder on a normalized number gives the fields back. -/
theorem enc_answers_normalized {k j : Nat} {s : State} {neg : Bool} {x y : Nat}
    (hx : x < l.emax) (hy : y < 2 ^ l.m) (hxy : ¬(x = 0 ∧ y = 0))
    (h : DecText s.operand neg (normalized l.m y (x - l.bias))) :
    Answers (enc (1 + l.c + l.m) k j) s
      (IsBits (1 + l.c + l.m) ((if neg then 2 ^ (l.c + l.m) else 0) + x * 2 ^ l.m + y)) := by
  obtain ⟨hlow, hhigh⟩ := normalized_bounds hy (x - l.bias)
  have hin : ¬OutOfRange l (x - l.bias + l.bias) (ieeeMantissa l.m (normalized l.m y (x - l.bias)) (x - l.bias)) := by
    rw [ieeeMantissa_normalized]
    have := emax_cast l
    omega
  simpa [ieeeMantissa_normalized] using hcodec.enc_answers_finite h hlow hhigh hin

/-- Rule R175 for a codec: the text of each case of rule R169 is an operand of the kind that encodes to it. -/
theorem decodeThenEncode : DecodeThenEncode l enc dec := by
  intro w k j s b es ms ht hes hms
  obtain ⟨-, -, -, hrule⟩ := hcodec.fdecRule w k j s
  obtain ⟨hinf, hnan, hzero, hnum⟩ := hrule b es ms _ _ ht hes hms rfl rfl
  have hx : uValue es < 2 ^ l.c := hes ▸ uValue_lt es
  have hy : uValue ms < 2 ^ l.m := hms ▸ uValue_lt ms
  have hemax : 0 < 2 ^ l.c - 1 := emax_pos hcodec.c_pos
  rw [uValue_fields hes hms]
  generalize uValue es = x at *
  generalize uValue ms = y at *
  by_cases he : x = 2 ^ l.c - 1
  · by_cases hm : y = 0
    · obtain ⟨r, text, hexec, hrender, htext⟩ := exists_rendered_inf (hinf he hm)
      refine ⟨r, text, hexec, hrender, ?_⟩
      rintro t rfl
      rw [if_neg (by omega), if_neg (by omega), he, hm]
      exact hcodec.enc_answers_inf htext
    · obtain ⟨r, text, hexec, hrender, htext⟩ := exists_rendered_nan (hnan he hm)
      refine ⟨r, text, hexec, hrender, ?_⟩
      rintro t rfl
      rw [if_pos ⟨he, hm⟩]
      exact hcodec.enc_answers_nan htext
  · rw [if_neg (fun h => he h.1)]
    by_cases h0 : x = 0 ∧ y = 0
    · obtain ⟨r, text, hexec, hrender, htext⟩ := exists_rendered_num (hzero h0.1 h0.2)
      refine ⟨r, text, hexec, hrender, ?_⟩
      rintro t rfl
      have hans := hcodec.enc_answers_zero (k := k) (j := j) htext
      cases hz : Config.negZeroSign <;> simpa [h0, hz] using hans
    · obtain ⟨r, text, hexec, hrender, htext⟩ := exists_rendered_num (hnum he h0)
      refine ⟨r, text, hexec, hrender, ?_⟩
      rintro t rfl
      rw [if_neg (fun h => h0 ⟨h.1, h.2.1⟩)]
      exact hcodec.enc_answers_normalized (Nat.lt_of_le_of_ne (Nat.le_pred_of_lt hx) he) hy h0 htext

end IeeeCodec

/-- Settles O53: the text of what was decoded is an operand of the same kind, and a normalized number has the exponent and
mantissa it was made of. -/
theorem ieeeDecodeThenEncode : Obligations.IeeeDecodeThenEncode :=
  ⟨f32Codec.decodeThenEncode, f64Codec.decodeThenEncode⟩

/-! ### The source's hand-off to the fixed-point decoder (rule R172) -/

/-- The fixed-point value of a string of the layout is its digits behind the sign, in units of 2^-j. -/
theorem fixedPointMag_cons {k j : Nat} (b : Bool) {bs : BitString} (hlen : bs.length = k + j) :
    fixedPointMag k j (b :: bs) = { sig := unsigned bs, exp := -(j : ℤ) } := by
  have hip : (bs.take k).length = k := by simp [hlen]
  have hfb : (bs.drop k).length = j := by simp [hlen]
  have hmag := fixedPointMag_fields b (bs.take k) (bs.drop k)
  rwa [← unsigned_append, List.take_append_drop, hip, hfb] at hmag

theorem handOffString_fields {l : Config.Layout} {es ms : BitString} (b : Bool) (hes : es.length = l.c)
    (hms : ms.length = l.m) (e : ℤ) :
    handOffString l (b :: (es ++ ms)) e = b :: (List.replicate (-e).toNat false ++ true :: ms) := by
  rw [handOffString, ← hes, ← hms, slice_second, digit_zero]

/-- The leading zeros place the implicit 1 and the mantissa, which are the value's digits in every case. -/
theorem handOffMag_fields {l : Config.Layout} {es ms : BitString} (b : Bool) (hes : es.length = l.c)
    (hms : ms.length = l.m) {e : ℤ} (he : e < l.m) :
    handOffMag l (b :: (es ++ ms)) e = { sig := 2 ^ l.m + uValue ms, exp := e - l.m } := by
  have hsig : unsigned (List.replicate (-e).toNat false ++ true :: ms) = 2 ^ l.m + uValue ms := by
    rw [← unsigned_eq_uValue]
    simp [unsigned_append, hms]
  have hlen : (List.replicate (-e).toNat false ++ true :: ms).length = (-e).toNat + (1 + l.m) := by
    simp [hms, add_comm]
  simp only [handOffMag, handOffString_fields b hes hms]
  split_ifs with hneg
  · rw [fixedPointMag_cons b (by rw [List.length_cons]; omega), hsig, List.length_cons, hlen]
    congr 1
    omega
  · rw [fixedPointMag_cons b (by omega), hsig]
    congr 1
    omega

theorem handOffRule (l : Config.Layout) : HandOffRule l := by
  intro b es ms e hes hms he
  rw [handOffMag_fields b hes hms he]
  push_cast
  rfl

/-- Settles O51: behind the sign the hand-off string is the implicit 1 and the mantissa, in units of 2^(E - M)
for either sign of E. -/
theorem handOffGivesTheDecodedValue : Obligations.HandOffGivesTheDecodedValue := ⟨handOffRule _, handOffRule _⟩

/-! ### The first-set-bit window (rule R164) -/

/-- The binary expansion is one number: the magnitude in units of 2^-n, truncated. -/
theorem binaryExpansion_eq (num : Nat) {den : Nat} (hden : 0 < den) (n : Nat) :
    binaryExpansion num den n = bin ((num / den).log2 + 1 + n) (num * 2 ^ n / den) := by
  rw [binaryExpansion, mul_div_eq_div_mul_add_mod num hden, bin_add (fraction_lt (Nat.mod_lt _ hden) n)]

theorem scaled_lt (num : Nat) {den : Nat} (hden : 0 < den) (n : Nat) :
    num * 2 ^ n / den < 2 ^ ((num / den).log2 + 1 + n) := by
  rw [mul_div_eq_div_mul_add_mod num hden, pow_add]
  have hfrac : num % den * 2 ^ n / den < 2 ^ n := fraction_lt (Nat.mod_lt _ hden) n
  calc num / den * 2 ^ n + num % den * 2 ^ n / den
      < num / den * 2 ^ n + 2 ^ n := Nat.add_lt_add_left hfrac _
    _ = (num / den + 1) * 2 ^ n := (Nat.succ_mul _ _).symm
    _ ≤ 2 ^ ((num / den).log2 + 1) * 2 ^ n := Nat.mul_le_mul_right _ Nat.lt_log2_self

/-- With n digits behind the point, 2^m units at least are counted. -/
theorem two_pow_le_scaled {m num den n : Nat} (hnum : 0 < num) (hden : 0 < den) (hn : m + den.log2 + 1 ≤ n) :
    2 ^ m ≤ num * 2 ^ n / den := by
  rw [Nat.le_div_iff_mul_le hden]
  calc 2 ^ m * den ≤ 2 ^ m * 2 ^ (den.log2 + 1) := Nat.mul_le_mul_left _ Nat.lt_log2_self.le
    _ = 2 ^ (m + den.log2 + 1) := by rw [← pow_add, add_assoc]
    _ ≤ 2 ^ n := Nat.pow_le_pow_right two_pos hn
    _ ≤ num * 2 ^ n := Nat.le_mul_of_pos_left _ hnum

/-- The digits of a number whose leading digit 1 is worth 2^g. -/
theorem bin_leading_one (z : Nat) {g r : Nat} (hr : r < 2 ^ g) :
    bin (z + 1 + g) (2 ^ g + r) = List.replicate z false ++ true :: bin g r := by
  have hone : bin (z + 1) 1 = List.replicate z false ++ [true] := by
    have := bin_add (a := z) (b := 1) (x := 0) (y := 1) (by decide)
    rwa [zero_mul, zero_add, bin_zero] at this
  rw [← one_mul (2 ^ g), bin_add hr, hone, List.append_assoc, List.singleton_append]

theorem findIdx_leading_one (z : Nat) (bs : BitString) :
    (List.replicate z false ++ true :: bs).findIdx (fun b => b) = z := by
  induction z with
  | zero => rfl
  | succ z ih => simp [List.replicate_succ, List.findIdx_cons, ih]

theorem slice_after_leading_one (z m : Nat) (bs : BitString) :
    slice (List.replicate z false ++ true :: bs) (z + 1) (z + m) = bs.take m := by
  rw [slice, ← List.drop_drop, List.drop_left' List.length_replicate, List.drop_one, List.tail_cons]
  congr 1
  omega

/-- The expansion is zeros, the first set bit and g digits behind it, among them the m of the window. -/
theorem exists_binaryExpansion {m num den n : Nat} (hnum : 0 < num) (hden : 0 < den) (hn : m + den.log2 + 1 ≤ n) :
    ∃ z t r, binaryExpansion num den n = List.replicate z false ++ true :: bin (m + t) r ∧ r < 2 ^ (m + t) ∧
      num * 2 ^ n / den = 2 ^ (m + t) + r ∧ z + (m + t) = (num / den).log2 + n := by
  have hlt := scaled_lt num hden n
  have hge := two_pow_le_scaled hnum hden hn
  have hexp := binaryExpansion_eq num hden n
  generalize num * 2 ^ n / den = v at hlt hge hexp
  have hv : v ≠ 0 := (hge.trans_lt' (by positivity)).ne'
  have hg : v.log2 < (num / den).log2 + 1 + n := (Nat.log2_lt hv).2 hlt
  obtain ⟨t, ht⟩ := Nat.exists_eq_add_of_le ((Nat.le_log2 hv).2 hge)
  obtain ⟨z, hz⟩ := Nat.exists_eq_add_of_le (Nat.le_of_lt_succ (by omega : v.log2 < (num / den).log2 + n + 1))
  obtain ⟨r, hr⟩ := Nat.exists_eq_add_of_le (Nat.log2_self_le hv)
  have hrlt : r < 2 ^ v.log2 := by
    have := Nat.lt_log2_self (n := v)
    rw [pow_succ] at this
    omega
  rw [ht] at hz hr hrlt
  refine ⟨z, t, r, ?_, hrlt, hr, by omega⟩
  rw [hexp, ← bin_leading_one z hrlt, ← hr]
  congr 1
  omega

/-- The m digits that the window reads behind the first set bit. -/
theorem window_of_leading_one {m num den n z t r : Nat} (hr : r < 2 ^ (m + t))
    (h : binaryExpansion num den n = List.replicate z false ++ true :: bin (m + t) r) :
    windowExponent num den n = (num / den).log2 - (z : ℤ) ∧ windowMantissa m num den n = r / 2 ^ t := by
  have hdigits : r / 2 ^ t < 2 ^ m := Nat.div_lt_of_lt_mul (by rwa [← pow_add, add_comm])
  constructor
  · rw [windowExponent, h, findIdx_leading_one]
  · simp only [windowMantissa, h, findIdx_leading_one, slice_after_leading_one, bin_split, List.take_left' (length_bin _ _),
      unsigned_bin hdigits]

/-- A number that is 2^g + r in units of 2^-n, truncated, lies in the binade of 2^(g - n), and its mantissa is the head
of r. -/
theorem binade_of_floor {a : ℚ} {m n t r : Nat} (hr : r < 2 ^ (m + t)) (hfloor : ⌊a * 2 ^ n⌋₊ = 2 ^ (m + t) + r) :
    (2 : ℚ) ^ ((m + t : ℤ) - n) ≤ a ∧ a < 2 ^ ((m + t : ℤ) - n + 1) ∧
      ieeeMantissa m a ((m + t : ℤ) - n) = r / 2 ^ t := by
  have hunit : (2 : ℚ) ^ ((m + t : ℤ) - n) = 2 ^ m * 2 ^ t / 2 ^ n := by
    rw [zpow_sub₀ two_ne_zero, zpow_add₀ two_ne_zero, zpow_natCast, zpow_natCast, zpow_natCast]
  obtain ⟨hlow, hhigh⟩ := (Nat.floor_eq_iff' (by positivity)).1 hfloor
  have hr1 : (r : ℚ) + 1 ≤ 2 ^ m * 2 ^ t := by
    rw [← pow_add]
    exact_mod_cast hr
  push_cast [pow_add] at hlow hhigh
  refine ⟨?_, ?_, ?_⟩
  · rw [hunit, div_le_iff₀ (by positivity)]
    exact le_trans (le_add_of_nonneg_right r.cast_nonneg) hlow
  · rw [zpow_add_one₀ two_ne_zero, hunit, div_mul_eq_mul_div, lt_div_iff₀ (by positivity)]
    linarith
  · have hval : (a / 2 ^ ((m + t : ℤ) - n) - 1) * 2 ^ m = (a * 2 ^ n - (2 ^ (m + t) : ℕ)) / (2 ^ t : ℕ) := by
      rw [hunit]
      push_cast [pow_add]
      field_simp
    rw [ieeeMantissa, hval, Nat.floor_div_natCast, Nat.floor_sub_natCast, hfloor, Nat.add_sub_cancel_left]

/-- Settles O47: the expansion is the magnitude in units of 2^-n, truncated; its first set bit says the binade and the digits
behind it the mantissa. -/
theorem firstSetBitWindowGivesExponentAndMantissa : Obligations.FirstSetBitWindowGivesExponentAndMantissa := by
  intro m num den n hnum hden hn
  obtain ⟨z, t, r, hexp, hr, hscaled, hz⟩ := exists_binaryExpansion hnum hden hn
  have hfloor : ⌊(num : ℚ) / den * 2 ^ n⌋₊ = 2 ^ (m + t) + r := by
    rw [← hscaled, ← floor_natCast_div]
    congr 1
    push_cast
    ring
  obtain ⟨hlow, hhigh, hmant⟩ := binade_of_floor hr hfloor
  obtain ⟨hwindow, hdigits⟩ := window_of_leading_one hr hexp
  exact ⟨_, hlow, hhigh, hwindow.trans (by omega), hdigits.trans hmant.symm⟩

end Sys2Proof.Machine
end

/-! ## Proofs of the exceptions family: the refusal at the port and the codes of each operation (60_exceptions.md) -/

section
namespace Sys2Proof.Machine

open Sys2Proof.Safety

/-! ### The refusal (rule R206) -/

/-- Only a request can fail to be admitted, and only by the length of its operand. -/
theorem not_admitted_iff (a : HostAction) :
    ¬Admitted a ↔ ∃ cmd operand, a = .issue cmd operand ∧ Config.operandCapacity < operand.length := by
  cases a <;> simp [Admitted]

/-- Settles O10: an idle step and the step of an admitted action answer a next state, and an action that is not admitted is
a request with an overlong operand. -/
theorem refusedExactlyWhenOperandTooLong : Obligations.RefusedExactlyWhenOperandTooLong := by
  intro s r
  constructor
  · intro hstep
    rcases hp : s.pending with _ | ⟨a, rest⟩
    · rw [step_of_pending_nil hp] at hstep
      cases hstep
    · by_cases ha : Admitted a
      · rw [step_of_admitted hp ha] at hstep
        cases hstep
      · obtain ⟨cmd, operand, rfl, hlong⟩ := (not_admitted_iff a).1 ha
        rw [step_of_overlong hp hlong] at hstep
        exact ⟨(Host.Outcome.refused.inj hstep).symm, cmd, operand, rest, rfl, hlong⟩
  · rintro ⟨rfl, cmd, operand, rest, hp, hlong⟩
    exact step_of_overlong hp hlong

/-! ### The status codes of each operation (rule R201) -/

/-- The last column of rule R201 by the names of the statuses, OK first. -/
def statusesOf : Instr → List Status
  | .uenc _ _ _ => [.ok, .invalidFormat, .negativeValueError, .widthOverflow, .invalidParameters]
  | .smenc _ _ _ | .ocenc _ _ _ | .tcenc _ _ _ | .fxenc _ _ _ => [.ok, .invalidFormat, .widthOverflow, .invalidParameters]
  | .udec _ _ _ | .smdec _ _ _ | .ocdec _ _ _ | .tcdec _ _ _ | .f32dec _ _ _ | .f64dec _ _ _ =>
    [.ok, .invalidFormat, .widthMismatch]
  | .fxdec _ _ _ => [.ok, .invalidFormat, .widthMismatch, .invalidParameters]
  | .f32enc _ _ _ | .f64enc _ _ _ => [.ok, .invalidFormat, .widthOverflow, .unsupportedWidth]

section Status
variable {l : List Status}

theorem status_raise_mem {e : Status} (he : e ∈ l) : (Reply.raise e).status ∈ l := he

theorem status_done_mem (hok : .ok ∈ l) (res : Result) : (Reply.done res).status ∈ l := hok

theorem status_ite_mem {c : Prop} [Decidable c] {r r' : Reply} (h : r.status ∈ l) (h' : r'.status ∈ l) :
    (if c then r else r').status ∈ l := by
  split
  · exact h
  · exact h'

/-- A check that raises one error and otherwise succeeds. -/
theorem status_check_mem {c : Prop} [Decidable c] {e : Status} (he : e ∈ l) (hok : .ok ∈ l) (res : Result) :
    (if c then Reply.raise e else .done res).status ∈ l :=
  status_ite_mem (status_raise_mem he) (status_done_mem hok res)

/-- An integer encoder raises one of the two errors before it looks at the value, or does what its own part does. -/
theorem status_encodeInt_mem (hparams : .invalidParameters ∈ l) (hformat : .invalidFormat ∈ l) {f : Bool → Nat → Reply}
    (hf : ∀ neg n, (f neg n).status ∈ l) (w : Nat) (t : Text) : (encodeInt w f t).status ∈ l := by
  refine status_ite_mem hparams ?_
  cases parseInt t with
  | none => exact hformat
  | some p => exact hf p.1 p.2

end Status

theorem status_uencInt_mem (w : Nat) (neg : Bool) (n : Nat) :
    (uencInt w neg n).status ∈ [.ok, .invalidFormat, .negativeValueError, .widthOverflow, .invalidParameters] :=
  status_ite_mem (by decide) (status_check_mem (by decide) (by decide) _)

/-- A signed encoder whose own part raises no error but WidthOverflow. -/
theorem status_signedEncoder_mem {f : Bool → Nat → Reply} (hf : ∀ neg n, (f neg n).status ∈ [.ok, .widthOverflow])
    (w : Nat) (t : Text) : (encodeInt w f t).status ∈ [.ok, .invalidFormat, .widthOverflow, .invalidParameters] := by
  have hsub : [Status.ok, .widthOverflow] ⊆ [.ok, .invalidFormat, .widthOverflow, .invalidParameters] := by decide
  exact status_encodeInt_mem (by decide) (by decide) (fun neg n => hsub (hf neg n)) w t

theorem status_decodeBits_mem (f : BitString → Bool × Nat) (t : Text) :
    (decodeBits f t).status ∈ [.ok, .invalidFormat, .widthMismatch] := by
  unfold decodeBits
  cases parseBits t with
  | none => exact status_raise_mem (by decide)
  | some bs => exact status_check_mem (by decide) (by decide) _

theorem status_fxenc_mem (k j : Nat) (t : Text) :
    (fxenc k j t).status ∈ [.ok, .invalidFormat, .widthOverflow, .invalidParameters] := by
  refine status_ite_mem (by decide) ?_
  cases parseDec t with
  | none => exact status_raise_mem (by decide)
  | some a => exact status_check_mem (by decide) (by decide) _

theorem status_fxdec_mem (k j : Nat) (t : Text) :
    (fxdec k j t).status ∈ [.ok, .invalidFormat, .widthMismatch, .invalidParameters] := by
  refine status_ite_mem (by decide) ?_
  cases parseBits t with
  | none => exact status_raise_mem (by decide)
  | some bs => exact status_check_mem (by decide) (by decide) _

theorem status_fenc_mem (l : Config.Layout) (z : Bool) (w : Nat) (t : Text) :
    (fenc l z w t).status ∈ [.ok, .invalidFormat, .widthOverflow, .unsupportedWidth] := by
  refine status_ite_mem (by decide) ?_
  rcases parseFloat t with _ | neg | neg | a
  · exact status_raise_mem (by decide)
  · exact status_done_mem (by decide) _
  · exact status_done_mem (by decide) _
  · exact status_ite_mem (status_done_mem (by decide) _) (status_check_mem (by decide) (by decide) _)

theorem status_fdec_mem (l : Config.Layout) (t : Text) : (fdec l t).status ∈ [.ok, .invalidFormat, .widthMismatch] := by
  unfold fdec
  cases parseBits t with
  | none => exact status_raise_mem (by decide)
  | some bs => exact status_check_mem (by decide) (by decide) _

/-- The status of every reply is in the operation's row of rule R201. -/
theorem status_replyOf_mem (i : Instr) (t : Text) : (replyOf i t).status ∈ statusesOf i := by
  cases i with
  | uenc w k j => exact replyOf_uenc w k j ▸ status_encodeInt_mem (by decide) (by decide) (status_uencInt_mem w) w t
  | smenc w k j =>
    exact replyOf_smenc w k j ▸ status_signedEncoder_mem (fun _ _ => status_check_mem (by decide) (by decide) _) w t
  | ocenc w k j =>
    exact replyOf_ocenc w k j ▸ status_signedEncoder_mem (fun _ _ => status_check_mem (by decide) (by decide) _) w t
  | tcenc w k j =>
    exact replyOf_tcenc w k j ▸ status_signedEncoder_mem (fun _ _ => status_check_mem (by decide) (by decide) _) w t
  | udec w k j => exact replyOf_udec w k j ▸ status_decodeBits_mem _ t
  | smdec w k j => exact replyOf_smdec w k j ▸ status_decodeBits_mem _ t
  | ocdec w k j => exact replyOf_ocdec w k j ▸ status_decodeBits_mem _ t
  | tcdec w k j => exact replyOf_tcdec w k j ▸ status_decodeBits_mem _ t
  | fxenc w k j => exact status_fxenc_mem k j t
  | fxdec w k j => exact status_fxdec_mem k j t
  | f32enc w k j => exact status_fenc_mem _ _ w t
  | f32dec w k j => exact status_fdec_mem _ t
  | f64enc w k j => exact status_fenc_mem _ _ w t
  | f64dec w k j => exact status_fdec_mem _ t

/-- Settles O22: exec writes the code of the reply's status, and the codes of each operation's statuses are those of the
table. -/
theorem statusCodesOfEachOperation : Obligations.StatusCodesOfEachOperation := by
  intro i s t hexec
  obtain rfl := exec_next hexec
  have hcode : (replyOf i s.operand).status.code.toNat ∈ (statusesOf i).map (fun e => e.code.toNat) :=
    List.mem_map_of_mem (status_replyOf_mem i s.operand)
  cases i <;> exact hcode

end Sys2Proof.Machine
end

/-! ## Proofs of the reset family: what reset and a power cycle leave (70_reset_and_hazards.md) -/

section
namespace Sys2Proof.Machine

/-- Settles O13: both actions leave `Rsp.reset`, every field of which is 0, and the rest of the host's list. -/
theorem resetActionZeroesRsp : Obligations.ResetActionZeroesRsp := by
  rintro s a rest hp (rfl | rfl)
  · exact step_of_reset hp
  · exact step_of_powerCycle hp

end Sys2Proof.Machine
end


/-! ## Proof of the remaining statement: a step with no action of the host pending (10_state.md section 4) -/

section
namespace Sys2Proof.Machine

/-- Settles O14: with the host's list empty, `step` finds no next action and keeps the state. -/
theorem idleStepChangesNothing : Obligations.IdleStepChangesNothing := by
  intro s hidle
  exact step_of_pending_nil hidle

end Sys2Proof.Machine
end
